-- ==== Sys2Proof/Word.lean ====
section
/-! DEFINITION. The word type of the machine and the record of its three condition flags. -/

namespace Sys2Proof

/-- A byte: the width of a register, a memory cell, an opcode and an operand (`XLEN`, 00_scope.md R6, R8). -/
abbrev Byte := BitVec 8

/-- `FL`, the three condition flags (10_state.md R30). They have no packing into a byte (R32). -/
structure Flags where
  /-- LESS_THAN -/
  l : Bool
  /-- GREATER_THAN -/
  g : Bool
  /-- EQUAL -/
  e : Bool
  deriving DecidableEq, Repr

/-- At most one flag is true: they are "mutually exclusive" (10_state.md R30). -/
abbrev Flags.Exclusive (f : Flags) : Prop :=
  ¬(f.l = true ∧ f.g = true) ∧ ¬(f.l = true ∧ f.e = true) ∧ ¬(f.g = true ∧ f.e = true)

end Sys2Proof
end

