-- ==== Sys2Proof/Config.lean ====
section
/-! DEFINITION. What is fixed for one machine: the numbers the source fixes, the parameters of the step (`OPC`, `ALU_EXT`)
the fault codes, and the parameters of its creation (00_scope.md R6). There is no free value: the spec leaves no result open. -/

namespace Sys2Proof

/-- `MEM_SIZE`: the cells are the addresses 0 to 255 (00_scope.md R6, 20_memory.md R50). -/
abbrev memSize : Nat := 256

/-- `NREG`: the registers are the indices 0 to 7 (00_scope.md R6, 10_state.md R21). -/
abbrev numRegs : Nat := 8

/-- `LOAD_ORIGIN`: the address of the first image byte (00_scope.md R6, 20_memory.md R52). -/
def loadOrigin : Nat := 0

/-- `OPC`: the opcode byte of each mnemonic (30_encoding.md R84, R93). Any assignment that is injective on the
dispatched mnemonics is admissible (R94; `Config.Admissible`). -/
structure OpcodeMap where
  ldi : Byte
  prn : Byte
  mul : Byte
  inc : Byte
  dec : Byte
  push : Byte
  pop : Byte
  hlt : Byte
  call : Byte
  ret : Byte
  add : Byte
  sub : Byte
  cmp : Byte
  deriving DecidableEq, Repr

/-- `FAULT_CODE`: the number of each fault kind on the status interface (00_scope.md R6, 60_exceptions.md R205; the spec's
D12, log entry 19). The default is 1 to 4 in the source's order of listing. -/
structure FaultCodes where
  invalidOpcode : Nat := 1
  outOfBounds : Nat := 2
  invalidRegister : Nat := 3
  unsupportedOperation : Nat := 4
  deriving DecidableEq, Repr

/-- The parameters that are no state (10_state.md R20: "Not state, but parameters of the step"), and the numbering of the
faults on the status interface (00_scope.md R6). -/
structure Config where
  /-- `OPC` -/
  opc : OpcodeMap
  /-- `ALU_EXT`: whether `ADD`, `SUB`, `CMP` are dispatched (30_encoding.md R93). -/
  aluExt : Bool
  /-- `FAULT_CODE` -/
  faultCodes : FaultCodes := {}
  deriving DecidableEq, Repr

/-- The parameters of a machine's creation that the spec leaves to a decision or open (00_scope.md R6).
`SP_RESET` is not among them: the source fixes it. -/
structure ResetParams where
  cfg : Config
  /-- `PC_RESET` -/
  pcReset : Nat
  /-- `REG_RESET`: registers 0 to 6 -/
  regReset : Vector Byte 7
  /-- `FL_RESET` -/
  flReset : Flags
  /-- `MEM_FILL`: a byte for each cell, which the cell holds where the image does not cover it -/
  memFill : Vector Byte memSize
  /-- `IMAGE` -/
  image : List Byte
  deriving DecidableEq, Repr

end Sys2Proof
end

