-- ==== Sys2Proof/Syntax.lean ====
section
/-! DEFINITION. The instructions: one constructor per row of spec/opcode_table.json, operands as the whole bytes the
formats of 30_encoding.md R81 give them. -/

namespace Sys2Proof

/-- The thirteen mnemonics (00_scope.md R19). -/
inductive Mnemonic where
  | ldi | prn | mul | inc | dec | push | pop | hlt | call | ret | add | sub | cmp
  deriving DecidableEq, Repr

/-- The four instruction formats (30_encoding.md R81). -/
inductive Format where
  /-- opcode -/
  | n
  /-- opcode, register -/
  | r
  /-- opcode, register, immediate -/
  | ri
  /-- opcode, register, register -/
  | rr
  deriving DecidableEq, Repr

/-- An instruction with its operand bytes. A register operand is the whole byte 0..255: an index above 7 is not
reserved, it faults when the register is accessed (30_encoding.md R82, R87). -/
inductive Instr where
  /-- LOAD_IMMEDIATE, R130 -/
  | ldi (a v : Byte)
  /-- PRINT_REGISTER, R131 -/
  | prn (a : Byte)
  /-- MULTIPLY, R150 -/
  | mul (a b : Byte)
  /-- INCREMENT, R151 -/
  | inc (a : Byte)
  /-- DECREMENT, R152 -/
  | dec (a : Byte)
  /-- PUSH, R170 -/
  | push (a : Byte)
  /-- POP, R171 -/
  | pop (a : Byte)
  /-- HALT, R180 -/
  | hlt
  /-- CALL, R181 -/
  | call (a : Byte)
  /-- RETURN, R182 -/
  | ret
  /-- ADD, only with `ALU_EXT`, R153 -/
  | add (a b : Byte)
  /-- SUB, only with `ALU_EXT`, R154 -/
  | sub (a b : Byte)
  /-- CMP, only with `ALU_EXT`, R155 -/
  | cmp (a b : Byte)
  deriving DecidableEq, Repr

/-- The mnemonic of an instruction. -/
def Instr.mnemonic : Instr → Mnemonic
  | .ldi _ _ => .ldi
  | .prn _ => .prn
  | .mul _ _ => .mul
  | .inc _ => .inc
  | .dec _ => .dec
  | .push _ => .push
  | .pop _ => .pop
  | .hlt => .hlt
  | .call _ => .call
  | .ret => .ret
  | .add _ _ => .add
  | .sub _ _ => .sub
  | .cmp _ _ => .cmp

/-- The operand bytes of an instruction, in the order of 30_encoding.md R81. -/
def Instr.operands : Instr → List Byte
  | .ldi a v => [a, v]
  | .prn a => [a]
  | .mul a b => [a, b]
  | .inc a => [a]
  | .dec a => [a]
  | .push a => [a]
  | .pop a => [a]
  | .hlt => []
  | .call a => [a]
  | .ret => []
  | .add a b => [a, b]
  | .sub a b => [a, b]
  | .cmp a b => [a, b]

/-- The operand bytes that are register indices (30_encoding.md R81, R82). -/
def Instr.registerOperands : Instr → List Byte
  | .ldi a _ => [a]
  | .prn a => [a]
  | .mul a b => [a, b]
  | .inc a => [a]
  | .dec a => [a]
  | .push a => [a]
  | .pop a => [a]
  | .hlt => []
  | .call a => [a]
  | .ret => []
  | .add a b => [a, b]
  | .sub a b => [a, b]
  | .cmp a b => [a, b]

end Sys2Proof
end

