-- ==== Sys2Proof/WellFormed.lean ====
section
/-! DEFINITION. Which mnemonics a configuration dispatches, when a configuration and a set of creation parameters are
admissible, and when an instruction is one of the machine's. -/

namespace Sys2Proof

/-- The ten base mnemonics, in the order of 30_encoding.md R84. -/
def baseMnemonics : List Mnemonic :=
  [.ldi, .prn, .mul, .inc, .dec, .push, .pop, .hlt, .call, .ret]

/-- The optional group, in the order of 30_encoding.md R93. -/
def optionalMnemonics : List Mnemonic := [.add, .sub, .cmp]

/-- The dispatched mnemonics: the ten base ones, and the optional group when and only when `ALU_EXT` (R84, R93). -/
def dispatched (aluExt : Bool) : List Mnemonic :=
  if aluExt then baseMnemonics ++ optionalMnemonics else baseMnemonics

/-- The opcode byte `OPC` gives a mnemonic. -/
def OpcodeMap.byteOf (o : OpcodeMap) : Mnemonic → Byte
  | .ldi => o.ldi
  | .prn => o.prn
  | .mul => o.mul
  | .inc => o.inc
  | .dec => o.dec
  | .push => o.push
  | .pop => o.pop
  | .hlt => o.hlt
  | .call => o.call
  | .ret => o.ret
  | .add => o.add
  | .sub => o.sub
  | .cmp => o.cmp

/-- `OPC` is admissible: "no two dispatched mnemonics share a byte" (30_encoding.md R94). -/
abbrev Config.Admissible (c : Config) : Prop :=
  ((dispatched c.aluExt).map c.opc.byteOf).Nodup

/-- The fault codes number the kinds: no two share a number, and none is 0, which "means no fault" (60_exceptions.md
R205). -/
abbrev FaultCodes.Admissible (c : FaultCodes) : Prop :=
  [0, c.invalidOpcode, c.outOfBounds, c.invalidRegister, c.unsupportedOperation].Nodup

/-- The instruction is one the configuration dispatches: `ADD`, `SUB`, `CMP` are instructions only with `ALU_EXT`
(30_encoding.md R93). Operand bytes need no check: every byte is encodable (R87). -/
def Instr.wellFormed (c : Config) (i : Instr) : Bool :=
  (dispatched c.aluExt).contains i.mnemonic

/-- Every register operand names one of the eight registers: software's duty (70_reset_and_hazards.md R237), not a
condition of decoding. -/
def Instr.registersValid (i : Instr) : Bool :=
  i.registerOperands.all fun a => a.toNat < numRegs

/-- The creation parameters are within the spec: an admissible `OPC` (R94), fault codes that number the kinds
(60_exceptions.md R205), at most 256 image bytes (20_memory.md R65), flags mutually exclusive (10_state.md R30), a pc that
the rules can give (R27). `REG_RESET` and `MEM_FILL` are any bytes (10_state.md R40). -/
def ResetParams.wellFormed (p : ResetParams) : Bool :=
  decide p.cfg.Admissible && decide p.cfg.faultCodes.Admissible && decide (p.image.length ≤ memSize) && decide p.flReset.Exclusive && decide (p.pcReset ≤ 258)

end Sys2Proof
end

