-- ==== Sys2Proof/Decode.lean ====
section
/-! DEFINITION. The decoder, total on every list of bytes and rejecting by name; after it the encoder, written from the
same tables; the default `OPC`; and the words of spec/opcode_table.json given to the decoder. -/

namespace Sys2Proof

/-- The format column of 30_encoding.md R84 and R93. -/
def Mnemonic.format : Mnemonic → Format
  | .hlt | .ret => .n
  | .prn | .inc | .dec | .push | .pop | .call => .r
  | .ldi => .ri
  | .mul | .add | .sub | .cmp => .rr

/-- The length in bytes of a format (30_encoding.md R81). -/
def Format.length : Format → Nat
  | .n => 1
  | .r => 2
  | .ri => 3
  | .rr => 3

/-- The length of the instruction an opcode selects, taken from its table row (30_encoding.md R88). -/
def Mnemonic.length (m : Mnemonic) : Nat := m.format.length

/-- The total width of an instruction, opcode and operand bytes (30_encoding.md R80). -/
def Instr.length (i : Instr) : Nat := i.mnemonic.length

/-- Dispatch: the mnemonic whose `OPC` value equals the whole opcode byte (30_encoding.md R85,
40_execution_cycle.md R112). Where two rows share a byte, which R94 excludes, the first is taken (log entry 22). -/
def dispatch (c : Config) (op : Byte) : Option Mnemonic :=
  (dispatched c.aluExt).find? fun m => c.opc.byteOf m == op

/-- Why a list of bytes is no instruction. -/
inductive DecodeError where
  /-- There is no opcode byte. -/
  | noOpcode
  /-- The opcode byte selects no dispatched mnemonic (30_encoding.md R86). -/
  | invalidOpcode (op : Byte)
  /-- The opcode selects `m`, and an operand byte of it is missing. -/
  | missingOperand (m : Mnemonic)
  deriving DecidableEq, Repr

/-- The instruction of mnemonic `m` whose operand bytes stand at the head of a list, with the rest of the list: the first
written argument is the first byte (30_encoding.md R81; the order of two operands is the spec's D15, log entry 13). -/
def takeOperands : Mnemonic → List Byte → Option (Instr × List Byte)
  | .ldi, a :: v :: rest => some (.ldi a v, rest)
  | .prn, a :: rest => some (.prn a, rest)
  | .mul, a :: b :: rest => some (.mul a b, rest)
  | .inc, a :: rest => some (.inc a, rest)
  | .dec, a :: rest => some (.dec a, rest)
  | .push, a :: rest => some (.push a, rest)
  | .pop, a :: rest => some (.pop a, rest)
  | .hlt, rest => some (.hlt, rest)
  | .call, a :: rest => some (.call a, rest)
  | .ret, rest => some (.ret, rest)
  | .add, a :: b :: rest => some (.add a b, rest)
  | .sub, a :: b :: rest => some (.sub a b, rest)
  | .cmp, a :: b :: rest => some (.cmp a b, rest)
  | _, _ => none

/-- The decoder: opcode first, then the operands its row gives (30_encoding.md R80, R85, R88). The bytes after the
instruction are handed back. -/
def decode (c : Config) : List Byte → Except DecodeError (Instr × List Byte)
  | [] => .error .noOpcode
  | op :: bytes =>
    match dispatch c op with
    | none => .error (.invalidOpcode op)
    | some m =>
      match takeOperands m bytes with
      | none => .error (.missingOperand m)
      | some r => .ok r

/-- The encoder: "bytes emitted" of 30_encoding.md R90, the opcode at the lowest address (R81). -/
def encode (o : OpcodeMap) : Instr → List Byte
  | .ldi a v => [o.ldi, a, v]
  | .prn a => [o.prn, a]
  | .mul a b => [o.mul, a, b]
  | .inc a => [o.inc, a]
  | .dec a => [o.dec, a]
  | .push a => [o.push, a]
  | .pop a => [o.pop, a]
  | .hlt => [o.hlt]
  | .call a => [o.call, a]
  | .ret => [o.ret]
  | .add a b => [o.add, a, b]
  | .sub a b => [o.sub, a, b]
  | .cmp a b => [o.cmp, a, b]

/-- The default `OPC` of 30_encoding.md R84 and R93. PRESUMED (unsafe, log entry 3): the spec supplies the values from
general knowledge; the source gives none. -/
def defaultOpcodeMap : OpcodeMap where
  ldi := 0x82
  prn := 0x47
  mul := 0xA2
  inc := 0x65
  dec := 0x66
  push := 0x45
  pop := 0x46
  hlt := 0x01
  call := 0x50
  ret := 0x11
  add := 0xA0
  sub := 0xA1
  cmp := 0xA7

/-- The default configuration: the default `OPC`, `ALU_EXT` false (00_scope.md R6; the spec's D2, log entry 4). -/
def defaultConfig : Config := { opc := defaultOpcodeMap, aluExt := false }

/-- The configuration under which spec/opcode_table.json lists its thirteen rows: the default `OPC` with `ALU_EXT` true. -/
def tableConfig : Config := { opc := defaultOpcodeMap, aluExt := true }

/-- The bytes of an opcode-table word: byte `k` is bits `8k+7..8k`, bits above `nbits` are 0, and three bytes are laid
out, the longest instruction. -/
def tableBytes (nbits w : Nat) : List Byte :=
  [BitVec.ofNat 8 (w % 2 ^ nbits), BitVec.ofNat 8 (w % 2 ^ nbits / 2 ^ 8), BitVec.ofNat 8 (w % 2 ^ nbits / 2 ^ 16)]

/-- What the decoder reads from a word of the opcode table. -/
def decodeTableWord (nbits w : Nat) : Option Instr :=
  match decode tableConfig (tableBytes nbits w) with
  | .ok (i, _) => some i
  | .error _ => none

end Sys2Proof
end

