-- ==== Sys2Proof/Machine/Memory.lean ====
section
/-! DEFINITION. Memory as plain data: a list of cells in one canonical form, what an unlisted cell reads as, and the
operations on the list. Bounds are checked above it, in Machine/Ops.lean. -/

namespace Sys2Proof.Machine

/-- The cells of the 256-byte memory (10_state.md R36) that differ from the unlisted value, by rising address. -/
abbrev Memory := List Host.Cell

/-- What an unlisted cell reads as: the default `MEM_FILL` 0x00 (10_state.md R39; the spec's D7: DESIGN CHOICE, unsafe,
log entry 7). -/
def unlistedByte : Byte := 0

/-- The canonical form: addresses strictly rising and below 256, no entry equal to the unlisted value. -/
abbrev Memory.wf (m : Memory) : Prop :=
  m.Pairwise (fun c d => c.1 < d.1) ∧ ∀ c ∈ m, c.1 < memSize ∧ c.2 ≠ unlistedByte

/-- The byte a cell holds (20_memory.md R50). -/
def Memory.read (m : Memory) (a : Nat) : Byte := (m.lookup a).getD unlistedByte

/-- Put a cell before the first cell of a higher or equal address. -/
def insertCell (c : Host.Cell) : Memory → Memory
  | [] => [c]
  | d :: m => if c.1 ≤ d.1 then c :: d :: m else d :: insertCell c m

/-- Make cell `a` hold `v`, and no other cell change (20_memory.md R56). -/
def Memory.write (m : Memory) (a : Nat) (v : Byte) : Memory :=
  let others := m.filter fun c => c.1 != a
  if v = unlistedByte then others else insertCell (a, v) others

/-- The cells from address `a` upward that hold the given bytes. -/
def cellsFrom : Nat → List Byte → Memory
  | _, [] => []
  | a, v :: vs => if v = unlistedByte then cellsFrom (a + 1) vs else (a, v) :: cellsFrom (a + 1) vs

/-- The memory each of whose 256 cells holds its own byte: `MEM_FILL`, any byte per cell (00_scope.md R6, 20_memory.md
R65). -/
def Memory.filled (fill : Vector Byte memSize) : Memory := cellsFrom 0 fill.toList

end Sys2Proof.Machine
end

