-- ==== Sys2Proof/Machine/ResetValues.lean ====
section
/-! DEFINITION. The reset values of 10_state.md R39: the one the source fixes, and the defaults of the others. -/

namespace Sys2Proof.Machine

/-- `SP_RESET`: "initialized to a fixed top-of-stack address (0xF4)" (10_state.md R39). -/
def spReset : Byte := 0xF4

/-- The default creation parameters (00_scope.md R6): `PC_RESET` 0 (D4), `REG_RESET` 0x00 (D5), `FL_RESET` all false (D6),
`MEM_FILL` 0x00 in every cell (D7), no image. DESIGN CHOICE (unsafe, log entries 5, 6, 7): the source gives none of these values. -/
def defaultResetParams : ResetParams where
  cfg := defaultConfig
  pcReset := 0
  regReset := Vector.replicate 7 0
  flReset := { l := false, g := false, e := false }
  memFill := Vector.replicate memSize 0
  image := []

/-- The registers after creation: `REG_RESET` for 0 to 6, `SP_RESET` for 7 (10_state.md R39). -/
def resetRegs (p : ResetParams) : Vector Byte numRegs := p.regReset.push spReset

/-- The memory after creation, before the image is loaded: every cell its `MEM_FILL` byte (70_reset_and_hazards.md R231 (1)). -/
def resetMem (p : ResetParams) : Memory := Memory.filled p.memFill

end Sys2Proof.Machine
end

