-- ==== Sys2Proof/Machine/State.lean ====
section
/-! DEFINITION. The state of one machine instance as plain data (10_state.md R20), the reasons a step can stop, and the
state after reset. -/

namespace Sys2Proof.Machine

/-- The four fault kinds of the machine (60_exceptions.md R200). A raised fault is recorded in `st` (R206, R209). -/
inductive FaultKind where
  /-- The dispatcher has no handler for the fetched byte (R201). Raised by the fetch of a step. -/
  | invalidOpcode
  /-- An address, a stack pointer or a return address outside 0..255 (R202). Raised by memory accesses, `spInc`, `CALL`. -/
  | outOfBounds
  /-- A register index outside 0..7 (R203). Raised by register accesses. -/
  | invalidRegister
  /-- The ALU was asked for an operation it lacks (R204). Raised by nothing: kept for the source's taxonomy. -/
  | unsupportedOperation
  deriving DecidableEq, Repr

/-- `st`, the run status (10_state.md R33). -/
inductive Status where
  | running
  | halted
  | faulted (k : FaultKind)
  deriving DecidableEq, Repr

/-- Why `step` answers no next state: the machine has none (40_execution_cycle.md R116). Both are safe: the spec says no
step exists. A fault the machine raises is not among them; it is a next state with `st` FAULTED (log entry 1). -/
inductive Fault where
  /-- `st` is HALTED. Raised by `step`. Safe. -/
  | halted
  /-- `st` is FAULTED(k). Raised by `step`. Safe. -/
  | faulted (k : FaultKind)
  deriving DecidableEq, Repr

/-- Why an instruction has no meaning. -/
inductive Refusal where
  /-- The instruction is not modelled yet. Raised by an arm of `exec`; no arm is left that does. Safe. -/
  | notModelled (mnemonic : String)
  deriving DecidableEq, Repr

/-- The tuple `(x, pc, FL, st, mem, out)` of 10_state.md R20, and beside it the parameters of the step. -/
structure State where
  /-- `x`: the eight registers; index 7 is the stack pointer (R21, R25). -/
  regs : Vector Byte numRegs
  /-- `pc`: a natural number, never reduced modulo 256 (R27; the spec's D3, log entry 8). -/
  pc : Nat
  /-- `FL` (R30). -/
  fl : Flags
  /-- `st` (R33). -/
  st : Status
  /-- `mem` (R36), in canonical form. -/
  mem : Memory
  /-- `out`: the bytes emitted so far, oldest first (R37). -/
  out : List Byte
  /-- `OPC`, `ALU_EXT` and `FAULT_CODE`: parameters, which no step changes (R20, 00_scope.md R6). DESIGN CHOICE (safe, log entry 2): the
  model carries them here so that a claim can hold for every value of them. -/
  cfg : Config
  deriving DecidableEq, Repr

/-- A newly created machine, before the image is loaded (10_state.md R39, 70_reset_and_hazards.md R231). -/
def State.create (p : ResetParams) : State where
  regs := resetRegs p
  pc := p.pcReset
  fl := p.flReset
  st := .running
  mem := resetMem p
  out := []
  cfg := p.cfg

/-- The machine right after reset with the default parameters and no image (10_state.md R39): the created machine, whose
memory of default `MEM_FILL` bytes lists nothing (`reset_eq_create` in Laws/Boot.lean). -/
def State.reset : State := { State.create defaultResetParams with mem := [] }

end Sys2Proof.Machine
end

