-- ==== Sys2Proof/Machine/Ops.lean ====
section
/-! DEFINITION. The named operations of 00_scope.md R9 to R15 over registers, memory, pc and output; raising a fault
(R13), the one way an exception is taken; and the fault codes of the status interface. -/

namespace Sys2Proof.Machine

/-- The outcome of a step of this machine. -/
abbrev Outcome := Host.Outcome State Fault Refusal

def State.setRegs (s : State) (r : Vector Byte numRegs) : State := { s with regs := r }
/-- `pc <- v`: no range check at the assignment (00_scope.md R14). -/
def State.setPc (s : State) (v : Nat) : State := { s with pc := v }
def State.setFlags (s : State) (f : Flags) : State := { s with fl := f }
def State.setStatus (s : State) (t : Status) : State := { s with st := t }
def State.setMem (s : State) (m : Memory) : State := { s with mem := m }
def State.setOut (s : State) (o : List Byte) : State := { s with out := o }

/-- `x[i]`: the byte of register `i`, or `raise InvalidRegister`; the index is compared in full (00_scope.md R9). -/
def regRead (s : State) (i : Nat) : Except FaultKind Byte :=
  if h : i < numRegs then .ok s.regs[i] else .error .invalidRegister

/-- `x[i] <- v` (00_scope.md R10). -/
def regWrite (s : State) (i : Nat) (v : Byte) : Except FaultKind State :=
  if h : i < numRegs then .ok (s.setRegs (s.regs.set i v)) else .error .invalidRegister

/-- `MemRead(addr, 1)` for an integer address, never reduced modulo 256 (00_scope.md R11). A read gives the latest write
(20_memory.md R59; log entry 24). -/
def memRead (s : State) (addr : Int) : Except FaultKind Byte :=
  match addr with
  | .ofNat a => if a < memSize then .ok (s.mem.read a) else .error .outOfBounds
  | .negSucc _ => .error .outOfBounds

/-- `MemWrite(addr, 1, v)` (00_scope.md R12). -/
def memWrite (s : State) (addr : Int) (v : Byte) : Except FaultKind State :=
  match addr with
  | .ofNat a => if a < memSize then .ok (s.setMem (s.mem.write a v)) else .error .outOfBounds
  | .negSucc _ => .error .outOfBounds

/-- `emit(v)`: append to the output channel (00_scope.md R15). -/
def emit (s : State) (v : Byte) : State := s.setOut (s.out ++ [v])

/-- Advance the pc by an instruction's width (40_execution_cycle.md R114). -/
def advance (s : State) (width : Nat) : State := s.setPc (s.pc + width)

/-- `raise K`, in the state before the instruction: every assignment of the instruction is undone, `st` becomes
FAULTED(K), control goes nowhere (00_scope.md R13, 60_exceptions.md R209; the spec's D10, log entry 10). There is no return from it (R211). -/
def raise (s : State) (k : FaultKind) : Outcome := .next (s.setStatus (.faulted k))

/-- Complete an instruction begun in `s`: all its assignments, or, if it raised a fault, none of them
(40_execution_cycle.md R115). -/
def complete (s : State) : Except FaultKind State → Outcome
  | .ok t => .next t
  | .error k => raise s k

/-- The number `FAULT_CODE` gives a fault kind (60_exceptions.md R205; the spec's D12, log entry 19). -/
def faultCode (c : FaultCodes) : FaultKind → Nat
  | .invalidOpcode => c.invalidOpcode
  | .outOfBounds => c.outOfBounds
  | .invalidRegister => c.invalidRegister
  | .unsupportedOperation => c.unsupportedOperation

/-- The fault code a status shows: 0 means no fault (60_exceptions.md R205). -/
def statusCode (c : FaultCodes) : Status → Nat
  | .running => 0
  | .halted => 0
  | .faulted k => faultCode c k

/-- The fault code the host reads on the status interface of a machine (00_scope.md R16 (3)). -/
def State.statusCode (s : State) : Nat := Sys2Proof.Machine.statusCode s.cfg.faultCodes s.st

end Sys2Proof.Machine
end

