-- ==== Sys2Proof/Machine/Flags.lean ====
section
/-! DEFINITION. The one flag computation of the machine (42_alu.md R146). -/

namespace Sys2Proof.Machine

/-- The flags a comparison of two bytes sets: unsigned, first operand against second (42_alu.md R146; direction and
signedness are the spec's D16, log entry 14). -/
def compareFlags (va vb : Byte) : Flags where
  l := decide (va.toNat < vb.toNat)
  g := decide (vb.toNat < va.toNat)
  e := decide (va.toNat = vb.toNat)

end Sys2Proof.Machine
end

