-- ==== Sys2Proof/Machine/Operands.lean ====
section
/-! DEFINITION. The operand forms: the register operand, the stack pointer and the one data addressing mode,
register-indirect through register 7, with the two stack micro-operations (43_stack.md section 1). -/

namespace Sys2Proof.Machine

/-- A register operand read: the whole operand byte is the index (30_encoding.md R82). -/
def readOperand (s : State) (a : Byte) : Except FaultKind Byte := regRead s a.toNat

/-- A register operand written (30_encoding.md R82). -/
def writeOperand (s : State) (a v : Byte) : Except FaultKind State := regWrite s a.toNat v

/-- `x[7]` (10_state.md R25). -/
def stackPointer (s : State) : Byte := s.regs[7]

/-- `x[7] <- v` for a byte `v`. -/
def setStackPointer (s : State) (v : Byte) : State := s.setRegs (s.regs.set 7 v)

/-- The effective address of a push: `x[7] - 1`, an integer, not reduced modulo 256 (43_stack.md R172). -/
def pushAddress (s : State) : Int := (stackPointer s).toNat - 1

/-- The effective address of a pop: `x[7]` (43_stack.md R173). -/
def popAddress (s : State) : Int := (stackPointer s).toNat

/-- `pushValue(v)` (43_stack.md R172): OutOfBounds if `x[7]` is 0 (the spec's D8, log entry 9). -/
def pushValue (s : State) (v : Byte) : Except FaultKind State := do
  let t ← memWrite s (pushAddress s) v
  pure (setStackPointer t (BitVec.ofInt 8 (pushAddress s)))

/-- `spInc()` (43_stack.md R173): OutOfBounds if register 7 holds 255 at this moment (the spec's D8, log entry 9). -/
def spInc (s : State) : Except FaultKind State :=
  let new := (stackPointer s).toNat + 1
  if 255 < new then .error .outOfBounds else .ok (setStackPointer s (BitVec.ofNat 8 new))

end Sys2Proof.Machine
end

