-- ==== Sys2Proof/Machine/Alu.lean ====
section
/-! DEFINITION. The ALU block: an operation and register indices in, the destination register or the flags written
(42_alu.md R140 to R149). It reads and writes nothing else. -/

namespace Sys2Proof.Machine

/-- The operation-select input with the register indices it takes: exactly six operations, two indices for ADD, SUB,
MULT, CMP and one for INC, DEC (42_alu.md R140, R147). There is no seventh value, so UnsupportedOperation has no way to
arise (R147). -/
inductive AluCommand where
  | add (dst src : Byte)
  | sub (dst src : Byte)
  | mult (dst src : Byte)
  | inc (dst : Byte)
  | dec (dst : Byte)
  | cmp (a b : Byte)
  deriving DecidableEq, Repr

/-- An exact integer result reduced modulo 256, also when negative (00_scope.md R8, 42_alu.md R156). -/
def wrapByte (n : Int) : Byte := BitVec.ofInt 8 n

/-- A two-operand operation: both values, as unsigned integers, are read before the result is written
(42_alu.md R140, R149). -/
def aluBinary (f : Int → Int → Int) (s : State) (dst src : Byte) : Except FaultKind State := do
  let va ← readOperand s dst
  let vb ← readOperand s src
  writeOperand s dst (wrapByte (f va.toNat vb.toNat))

/-- A one-operand operation (42_alu.md R140). -/
def aluUnary (f : Int → Int) (s : State) (dst : Byte) : Except FaultKind State := do
  let va ← readOperand s dst
  writeOperand s dst (wrapByte (f va.toNat))

/-- The comparison: all three flags are written and no register (42_alu.md R146). -/
def aluCompare (s : State) (a b : Byte) : Except FaultKind State := do
  let va ← readOperand s a
  let vb ← readOperand s b
  pure (s.setFlags (compareFlags va vb))

/-- The ALU: R141 ADD, R142 SUB, R143 MULT, R144 INC, R145 DEC, R146 CMP (42_alu.md). -/
def alu (s : State) : AluCommand → Except FaultKind State
  | .add dst src => aluBinary (fun x y => x + y) s dst src
  | .sub dst src => aluBinary (fun x y => x - y) s dst src
  | .mult dst src => aluBinary (fun x y => x * y) s dst src
  | .inc dst => aluUnary (fun x => x + 1) s dst
  | .dec dst => aluUnary (fun x => x - 1) s dst
  | .cmp a b => aluCompare s a b

end Sys2Proof.Machine
end

