-- ==== Sys2Proof/Machine/Arith.lean ====
section
/-! DEFINITION. The meanings of the ALU instructions (42_alu.md R150 to R155). The operand bytes have been fetched.
`ADD`, `SUB` and `CMP` exist only with `ALU_EXT`; dispatch decides that (30_encoding.md R93, log entry 15). -/

namespace Sys2Proof.Machine

/-- `MUL Ra, Rb` (R150). -/
def execMul (a b : Byte) (s : State) : Outcome := complete s do
  let t ← alu s (.mult a b)
  pure (advance t 3)

/-- `INC Ra` (R151). -/
def execInc (a : Byte) (s : State) : Outcome := complete s do
  let t ← alu s (.inc a)
  pure (advance t 2)

/-- `DEC Ra` (R152). -/
def execDec (a : Byte) (s : State) : Outcome := complete s do
  let t ← alu s (.dec a)
  pure (advance t 2)

/-- `ADD Ra, Rb` (R153). -/
def execAdd (a b : Byte) (s : State) : Outcome := complete s do
  let t ← alu s (.add a b)
  pure (advance t 3)

/-- `SUB Ra, Rb` (R154). -/
def execSub (a b : Byte) (s : State) : Outcome := complete s do
  let t ← alu s (.sub a b)
  pure (advance t 3)

/-- `CMP Ra, Rb` (R155). -/
def execCmp (a b : Byte) (s : State) : Outcome := complete s do
  let t ← alu s (.cmp a b)
  pure (advance t 3)

end Sys2Proof.Machine
end

