-- ==== Sys2Proof/Machine/Control.lean ====
section
/-! DEFINITION. The meanings of `HLT`, `CALL` and `RET` (44_control.md). The operand byte has been fetched. -/

namespace Sys2Proof.Machine

/-- `HLT` (R180): it occupies one slot, though the loop does not fetch again. -/
def execHlt (s : State) : Outcome := complete s do
  pure (advance (s.setStatus .halted) 1)

/-- `CALL Ra` (R181): the return address 256 is no byte (the spec's D9, log entry 9); the target is read after the push
(D17, log entry 12). -/
def execCall (a : Byte) (s : State) : Outcome := complete s do
  let ret := s.pc + 2
  if 255 < ret then .error .outOfBounds else
    let t ← pushValue s (BitVec.ofNat 8 ret)
    let target ← readOperand t a
    pure (t.setPc target.toNat)

/-- `RET` (R182). -/
def execRet (s : State) : Outcome := complete s do
  let target ← memRead s (popAddress s)
  let t ← spInc s
  pure (t.setPc target.toNat)

end Sys2Proof.Machine
end

