-- ==== Sys2Proof/Machine/LoadPrint.lean ====
section
/-! DEFINITION. The meanings of `LDI` and `PRN` (41_load_and_print.md). The operand bytes have been fetched. -/

namespace Sys2Proof.Machine

/-- `LDI Ra, v` (R130). -/
def execLdi (a v : Byte) (s : State) : Outcome := complete s do
  let t ← writeOperand s a v
  pure (advance t 3)

/-- `PRN Ra` (R131). -/
def execPrn (a : Byte) (s : State) : Outcome := complete s do
  let v ← readOperand s a
  pure (advance (emit s v) 2)

end Sys2Proof.Machine
end

