-- ==== Sys2Proof/Machine/Stack.lean ====
section
/-! DEFINITION. The meanings of `PUSH` and `POP` (43_stack.md). The operand byte has been fetched. The order of actions
is the source's sentence (the spec's D11, D17: log entries 11, 12). -/

namespace Sys2Proof.Machine

/-- `PUSH Ra` (R170): the operand register is read after the decrement, so `PUSH R7` stores `x[7] - 1`. -/
def execPush (a : Byte) (s : State) : Outcome := complete s do
  let x ← readOperand s a
  let v := if a.toNat = 7 then BitVec.ofInt 8 (pushAddress s) else x
  let t ← pushValue s v
  pure (advance t 2)

/-- `POP Ra` (R171): the destination is written before register 7 is incremented, so `POP R7` ends with the popped byte
plus one. -/
def execPop (a : Byte) (s : State) : Outcome := complete s do
  let v ← memRead s (popAddress s)
  let t ← writeOperand s a v
  let u ← spInc t
  pure (advance u 2)

end Sys2Proof.Machine
end

