-- ==== Sys2Proof/Machine/Fetch.lean ====
section
/-! DEFINITION. Fetching an instruction's bytes from memory and handing them to the decoder, and laying an instruction's
bytes where the next fetch reads them. -/

namespace Sys2Proof.Machine

/-- Up to `n` bytes from address `a` upward, ending where an address leaves memory: the addresses never wrap
(40_execution_cycle.md R111, R113). -/
def bytesFrom (s : State) : Nat → Nat → List Byte
  | 0, _ => []
  | n + 1, a =>
    match memRead s a with
    | .ok b => b :: bytesFrom s n (a + 1)
    | .error _ => []

/-- The bytes at the pc, as many as the longest instruction has. A read has no side effect (20_memory.md R56), so reading
a byte the instruction turns out not to use is unobservable. DEDUCED (safe, log entry 16). -/
def fetchBytes (s : State) : List Byte := bytesFrom s 3 s.pc

/-- The fault each failed decoding is: a byte that is missing lies above address 255 (40_execution_cycle.md R111, R112,
R113; 60_exceptions.md R208 (1) to (3)). -/
def fetchFault : DecodeError → FaultKind
  | .noOpcode => .outOfBounds
  | .invalidOpcode _ => .invalidOpcode
  | .missingOperand _ => .outOfBounds

/-- Fetch, dispatch and operand fetch of one step, before any other effect (40_execution_cycle.md R110, R113). -/
def fetch (s : State) : Except FaultKind Instr :=
  match decode s.cfg (fetchBytes s) with
  | .ok (i, _) => .ok i
  | .error e => .error (fetchFault e)

/-- Store bytes from address `a` upward, those that fall inside memory. -/
def placeBytes : Nat → List Byte → Memory → Memory
  | _, [], m => m
  | a, b :: bs, m => if a < memSize then placeBytes (a + 1) bs (m.write a b) else m

/-- The configuration under which an opcode byte is dispatched: `ALU_EXT` is set where only the optional group has the
byte (30_encoding.md R93), and nothing is changed otherwise. -/
def configFor (c : Config) (op : Byte) : Config :=
  if (dispatch c op).isNone && (dispatch { c with aluExt := true } op).isSome then { c with aluExt := true } else c

end Sys2Proof.Machine
end

