-- ==== Sys2Proof/Machine/Step.lean ====
section
/-! DEFINITION. One fetch-dispatch-execute cycle, and placing an instruction where it fetches. -/

namespace Sys2Proof.Machine

/-- One step (40_execution_cycle.md R110): from RUNNING exactly one next state; in HALTED and FAULTED(K) no step exists
(R116). Only here is the run status looked at (log entry 21). -/
def step (s : State) : Host.Outcome State Fault Refusal :=
  match s.st with
  | .running =>
    match fetch s with
    | .ok i => exec i s
    | .error k => raise s k
  | .halted => .fault .halted
  | .faulted k => .fault (.faulted k)

/-- `s` with the instruction of an opcode-table word stored at the pc, where `step` fetches next. The word's bytes stand
for a part of the image (70_reset_and_hazards.md R231); `ALU_EXT` is set when only the optional group has the opcode
(log entries 4, 17). -/
def State.withFetchWord (s : State) (nbits w : Nat) : State :=
  { s with
    mem := placeBytes s.pc (tableBytes nbits w) s.mem
    cfg := configFor s.cfg ((tableBytes nbits w).headD 0) }

end Sys2Proof.Machine
end

