-- ==== Sys2Proof/Machine/Boot.lean ====
section
/-! DEFINITION. Creating a machine and loading its image, before the run (20_memory.md R65, 70_reset_and_hazards.md R231),
and the image file (30_encoding.md R95). These are the host's acts, not steps of the machine. -/

namespace Sys2Proof.Machine

/-- The loader: the bytes written at increasing addresses from `a`. A byte for an address above 255 is the loader's own
OutOfBounds error (00_scope.md R12, 30_encoding.md R96). -/
def loadFrom : Nat → List Byte → State → Except FaultKind State
  | _, [], s => .ok s
  | a, b :: bs, s => do
    let t ← memWrite s a b
    loadFrom (a + 1) bs t

/-- Creation and image load: the reset state of 10_state.md R39 for given parameters, or the loader's error, after which
the core is never run (30_encoding.md R96). -/
def boot (p : ResetParams) : Except FaultKind State := loadFrom loadOrigin p.image (State.create p)

/-- "A line is significant only if its first character is `0` or `1`" (30_encoding.md R95). -/
def significantLine : List Char → Bool
  | [] => false
  | c :: _ => c == '0' || c == '1'

/-- "Any text from a `#` character onward is a comment and is discarded" (30_encoding.md R95). -/
def stripComment (l : List Char) : List Char := l.takeWhile fun c => c != '#'

/-- The value of a binary numeral read after the digits `n` stands for; none if a character is no binary digit. -/
def binaryValue : Nat → List Char → Option Nat
  | n, [] => some n
  | n, c :: cs =>
    if c = '0' then binaryValue (2 * n) cs else if c = '1' then binaryValue (2 * n + 1) cs else none

/-- The byte of a significant line: eight binary digits, the first of them bit 7 (30_encoding.md R95). Anything else has
no value the spec gives (R96, U13): DESIGN CHOICE (safe, log entry 18), no image. -/
def lineByte (l : List Char) : Option Byte :=
  if (stripComment l).length = 8 then (binaryValue 0 (stripComment l)).map (BitVec.ofNat 8) else none

/-- `IMAGE` of an image file given as its lines: one byte for each significant line, in file order; all other lines are
skipped (30_encoding.md R95). -/
def imageOfFile (lines : List (List Char)) : Option (List Byte) :=
  (lines.filter significantLine).mapM lineByte

end Sys2Proof.Machine
end

