-- ==== Sys2Proof/Safety.lean ====
section
/-! DEFINITION. What claims about the machine are stated with: the invariant, runs and their ends, an instruction lying
at the pc, and the spec's tables of which instruction reads, writes, moves and faults, written from those tables and not
from the meanings. -/

namespace Sys2Proof.Machine

/-- The invariant of the machine: memory in canonical form, the pc among the values the rules give (10_state.md R27),
the flags mutually exclusive (R30), `OPC` admissible (30_encoding.md R94). -/
abbrev State.Inv (s : State) : Prop :=
  s.mem.wf ∧ s.pc ≤ 258 ∧ s.fl.Exclusive ∧ s.cfg.Admissible

/-- A terminal state: no step is possible (00_scope.md R18, 40_execution_cycle.md R116). -/
abbrev State.terminal (s : State) : Prop := s.st ≠ .running

/-- A safe run ends normally: HALTED, the end only `HLT` reaches (40_execution_cycle.md R118). -/
abbrev State.endedNormally (s : State) : Prop := s.st = .halted

/-- A run that ended in the error `k`; a claim reads no other field of such a state (60_exceptions.md R210). -/
abbrev State.endedInError (s : State) (k : FaultKind) : Prop := s.st = .faulted k

/-- `run`: the reflexive-transitive closure of `step` (40_execution_cycle.md R117). -/
inductive Run : State → State → Prop where
  | refl (s : State) : Run s s
  | tail {s t u : State} : Run s t → step t = .next u → Run s u

/-- The opcode byte of `i` lies at the pc. -/
abbrev opcodeAtPc (s : State) (i : Instr) : Prop :=
  memRead s s.pc = .ok (s.cfg.opc.byteOf i.mnemonic)

/-- The operand bytes of `i` lie at `pc+1` and `pc+2` (30_encoding.md R81). -/
abbrev operandsAtPc (s : State) (i : Instr) : Prop :=
  ∀ k (h : k < i.operands.length), memRead s (s.pc + 1 + k : Nat) = .ok i.operands[k]

/-- What fetching does for the instruction `i` in state `s`: with the opcode byte of `i` at the pc of a RUNNING machine,
an operand address above 255 raises OutOfBounds, and otherwise the operand bytes are fetched and `i` is executed
(40_execution_cycle.md R112, R113). -/
def FetchRule (s : State) (i : Instr) : Prop :=
  s.st = .running → s.cfg.Admissible → i.wellFormed s.cfg = true → opcodeAtPc s i →
    if 256 < s.pc + i.length then step s = raise s .outOfBounds
    else operandsAtPc s i → step s = exec i s

/-- The column "registers read" of the table of 10_state.md R24. -/
def registersRead : Instr → List Nat
  | .ldi _ _ => []
  | .prn a => [a.toNat]
  | .mul a b => [a.toNat, b.toNat]
  | .inc a => [a.toNat]
  | .dec a => [a.toNat]
  | .push a => [7, a.toNat]
  | .pop _ => [7]
  | .hlt => []
  | .call a => [7, a.toNat]
  | .ret => [7]
  | .add a b => [a.toNat, b.toNat]
  | .sub a b => [a.toNat, b.toNat]
  | .cmp a b => [a.toNat, b.toNat]

/-- The column "registers written" of the table of 10_state.md R24. -/
def registersWritten : Instr → List Nat
  | .ldi a _ => [a.toNat]
  | .prn _ => []
  | .mul a _ => [a.toNat]
  | .inc a => [a.toNat]
  | .dec a => [a.toNat]
  | .push _ => [7]
  | .pop a => [a.toNat, 7]
  | .hlt => []
  | .call _ => [7]
  | .ret => [7]
  | .add a _ => [a.toNat]
  | .sub a _ => [a.toNat]
  | .cmp _ _ => []

/-- The column "writes" of the table of 20_memory.md R51: the address an instruction stores to, by the expression its
meaning uses. -/
def storeAddress (s : State) : Instr → Option Int
  | .push _ => some (pushAddress s)
  | .call _ => some (pushAddress s)
  | .ldi _ _ | .prn _ | .mul _ _ | .inc _ | .dec _ | .pop _ | .hlt | .ret | .add _ _ | .sub _ _ | .cmp _ _ => none

/-- The table of 10_state.md R28: the pc of the state `t` an instruction completes in, begun in `s`. -/
def pcFollowsTable (s t : State) : Instr → Prop
  | .ldi _ _ => t.pc = s.pc + 3
  | .prn _ => t.pc = s.pc + 2
  | .mul _ _ => t.pc = s.pc + 3
  | .inc _ => t.pc = s.pc + 2
  | .dec _ => t.pc = s.pc + 2
  | .push _ => t.pc = s.pc + 2
  | .pop _ => t.pc = s.pc + 2
  | .hlt => t.pc = s.pc + 1
  | .call a => ∃ v, regRead t a.toNat = .ok v ∧ t.pc = v.toNat
  | .ret => ∃ v, memRead s (popAddress s) = .ok v ∧ t.pc = v.toNat
  | .add _ _ => t.pc = s.pc + 3
  | .sub _ _ => t.pc = s.pc + 3
  | .cmp _ _ => t.pc = s.pc + 3

/-- The faults of a handler whose operand bytes are `a` and `b`, in the order of 60_exceptions.md R208 (4) and (5), with
the causes of R202 and R203. -/
def handlerFault (s : State) (a b : Byte) : Mnemonic → Option FaultKind
  | .ldi | .prn | .inc | .dec => if 7 < a.toNat then some .invalidRegister else none
  | .mul | .add | .sub | .cmp => if 7 < a.toNat ∨ 7 < b.toNat then some .invalidRegister else none
  | .push =>
    if 7 < a.toNat then some .invalidRegister
    else if (stackPointer s).toNat = 0 then some .outOfBounds else none
  | .pop =>
    if 7 < a.toNat then some .invalidRegister
    else if (if a.toNat = 7 then s.mem.read (stackPointer s).toNat else stackPointer s).toNat = 255 then some .outOfBounds
    else none
  | .call =>
    if s.pc = 254 ∨ (stackPointer s).toNat = 0 then some .outOfBounds
    else if 7 < a.toNat then some .invalidRegister else none
  | .ret => if (stackPointer s).toNat = 255 then some .outOfBounds else none
  | .hlt => none

/-- The fault a step from a RUNNING state reports, or none: the causes of 60_exceptions.md R201 to R203 in the order of
R208. -/
def expectedFault (s : State) : Option FaultKind :=
  if 255 < s.pc then some .outOfBounds
  else
    match dispatch s.cfg (s.mem.read s.pc) with
    | none => some .invalidOpcode
    | some m =>
      if 256 < s.pc + m.length then some .outOfBounds
      else handlerFault s (s.mem.read (s.pc + 1)) (s.mem.read (s.pc + 2)) m

end Sys2Proof.Machine
end

