-- ==== Sys2Proof/Certificates/Slice0/Obligations.lean ====
section
/-! DEFINITION. The statements for the provers. Each docstring names the rule or the section of spec/ it formalises, and
the spec's decision (D<n> of 92_eei_decisions.md) and log entry where one enters. -/

open Sys2Proof Sys2Proof.Machine

/-! Encoding and decoding. -/

/-- The decoder reads back what the encoder writes, for every dispatched instruction, every operand byte and every
admissible `OPC` (30_encoding.md sections 1 and 3). The operand order is the spec's D15 (log entry 13). -/
def Obligations.DecodingReadsBackEveryEncoding : Prop :=
  ∀ (c : Config) (i : Instr) (rest : List Byte), c.Admissible → i.wellFormed c = true →
    decode c (encode c.opc i ++ rest) = .ok (i, rest)

/-- What decodes is an encoding: the bytes are those the encoder writes, and the instruction is a dispatched one
(30_encoding.md sections 1 and 3). -/
def Obligations.DecodedBytesAreTheEncoding : Prop :=
  ∀ (c : Config) (bytes rest : List Byte) (i : Instr), decode c bytes = .ok (i, rest) →
    bytes = encode c.opc i ++ rest ∧ i.wellFormed c = true

/-- Words written out from the encodings of 30_encoding.md R81, R84, R93 with the default `OPC` (general knowledge by the
spec's own words, D1, log entry 3) decode to their instructions. -/
def Obligations.WordsOfTheTableDecode : Prop :=
  decodeTableWord 24 0x080082 = some (.ldi 0 8) ∧
  decodeTableWord 16 0x0347 = some (.prn 3) ∧
  decodeTableWord 24 0x0201A2 = some (.mul 1 2) ∧
  decodeTableWord 16 0x0245 = some (.push 2) ∧
  decodeTableWord 8 0x01 = some .hlt ∧
  decodeTableWord 16 0x0150 = some (.call 1) ∧
  decodeTableWord 24 0x0001A1 = some (.sub 1 0)

/-- 30_encoding.md R88: the length comes from the instruction the opcode byte selects. -/
def Obligations.LengthComesFromTheSelectedInstruction : Prop :=
  ∀ (c : Config) (bytes rest : List Byte) (i : Instr), decode c bytes = .ok (i, rest) →
    bytes.length = rest.length +
      match i with
      | .hlt | .ret => 1
      | .prn _ | .inc _ | .dec _ | .push _ | .pop _ | .call _ => 2
      | .ldi _ _ | .mul _ _ | .add _ _ | .sub _ _ | .cmp _ _ => 3

/-- 30_encoding.md R85: dispatch compares the whole byte; decoding depends on the opcode byte only through the row it
selects; no step changes how a byte decodes. -/
def Obligations.DispatchComparesTheWholeByte : Prop :=
  (∀ (c : Config) (op : Byte) (m : Mnemonic), c.Admissible →
    (dispatch c op = some m ↔ m ∈ dispatched c.aluExt ∧ c.opc.byteOf m = op)) ∧
  (∀ (c d : Config) (op oq : Byte) (m : Mnemonic) (bytes : List Byte), dispatch c op = some m → dispatch d oq = some m →
    decode c (op :: bytes) = decode d (oq :: bytes)) ∧
  (∀ (s t : State), step s = .next t → t.cfg = s.cfg)

/-- With `ALU_EXT` false the bytes of `ADD`, `SUB`, `CMP` are invalid opcodes, under every `OPC` that is injective on all
thirteen mnemonics (30_encoding.md section 3; the optional group is the spec's D2, log entry 15). -/
def Obligations.OptionalBytesAreInvalidInTheBaseMachine : Prop :=
  ∀ (c : Config), Config.Admissible { c with aluExt := true } →
    ∀ m ∈ optionalMnemonics, dispatch { c with aluExt := false } (c.opc.byteOf m) = none

/-- Every byte but the dispatched ones is an invalid opcode: 246 of the 256 bytes, or 243 with `ALU_EXT`, under every
admissible `OPC` (30_encoding.md section 4). -/
def Obligations.EveryOtherByteIsAnInvalidOpcode : Prop :=
  ∀ c : Config, c.Admissible →
    ((List.range 256).filter fun n => (dispatch c (BitVec.ofNat 8 n)).isNone).length = if c.aluExt then 243 else 246

/-! The cycle. -/

/-- When the bytes at the pc decode to an instruction, a step of the running machine is that instruction's execution and
nothing more: this machine's step adds nothing around `exec` (40_execution_cycle.md section 1). -/
def Obligations.StepRunsTheDecodedInstruction : Prop :=
  ∀ (s : State) (i : Instr) (rest : List Byte), s.st = .running → decode s.cfg (fetchBytes s) = .ok (i, rest) →
    step s = exec i s

/-- The same in terms of memory alone, for every instruction: with its opcode byte at the pc, operand bytes above address
255 raise OutOfBounds before anything else happens, and otherwise the instruction is executed with the bytes at `pc+1`
and `pc+2` (40_execution_cycle.md section 1; operands before every other effect is the spec's D11, log entry 11). -/
def Obligations.OperandsAreFetchedBeforeExecution : Prop :=
  ∀ (s : State) (i : Instr), FetchRule s i

/-- A fetch above address 255 raises OutOfBounds and does not wrap to address 0 (40_execution_cycle.md section 1; the
spec's D3, log entry 8). -/
def Obligations.FetchAboveMemoryRaisesOutOfBounds : Prop :=
  ∀ (s : State), s.st = .running → 255 < s.pc → step s = .next { s with st := .faulted .outOfBounds }

/-- 40_execution_cycle.md section 1: the dispatched instruction is the one whose `OPC` value equals the byte; a byte of none
raises InvalidOpcode, nothing else happens in that step, wherever the pc is, and no further cycle is performed. The operand
bytes of the first clause lie in the order of the spec's D15 (log entry 13). -/
def Obligations.DispatchSelectsOrRaisesInvalidOpcode : Prop :=
  ∀ (s : State) (op : Byte), s.st = .running → memRead s s.pc = .ok op →
    (∀ i : Instr, s.cfg.Admissible → i.wellFormed s.cfg = true → s.cfg.opc.byteOf i.mnemonic = op →
      operandsAtPc s i → step s = exec i s) ∧
    ((∀ m ∈ dispatched s.cfg.aluExt, s.cfg.opc.byteOf m ≠ op) →
      step s = .next { s with st := .faulted .invalidOpcode } ∧
      ∀ u, step { s with st := .faulted .invalidOpcode } ≠ .next u)

/-- 40_execution_cycle.md R116: a step exists exactly in RUNNING; HALTED and FAULTED are terminal for the lifetime. -/
def Obligations.StepExistsExactlyWhenRunning : Prop :=
  (∀ s : State, (∃ t, step s = .next t) ↔ s.st = .running) ∧
  (∀ s t : State, s.terminal → Run s t → t = s)

/-- `run` is the iterated step: a run from `s` to `t` is some number of steps of the machine behind the host's interface
(40_execution_cycle.md section 2). -/
def Obligations.RunIsTheIteratedStep : Prop :=
  ∀ s t : State, Run s t ↔ ∃ n : Nat, Host.Core.run Sys2Proof.core n s = .next t

/-! The instructions, one statement each: the fetch of its operands, where it completes and in which state, where it
traps. A trap is `raise`, as in the rules' pseudocode; what `raise` leaves behind is stated on its own
(`FaultChangesOnlyTheStatus`). -/

/-- 41_load_and_print.md R130. -/
def Obligations.LdiLoadsTheImmediate : Prop :=
  ∀ (s : State) (a v : Byte), FetchRule s (.ldi a v) ∧
    (∀ h : a.toNat < 8, ∃ t, exec (.ldi a v) s = .next t ∧
      t = { s with regs := s.regs.set a.toNat v, pc := s.pc + 3 } ∧ regRead t a.toNat = .ok v) ∧
    (8 ≤ a.toNat → exec (.ldi a v) s = raise s .invalidRegister)

/-- 41_load_and_print.md, the rule of `PRN`. That the byte itself is appended, its rendering being the host's, is the spec's
D13 (log entry 20). -/
def Obligations.PrnEmitsTheRegister : Prop :=
  ∀ (s : State) (a : Byte), FetchRule s (.prn a) ∧
    (∀ h : a.toNat < 8, exec (.prn a) s = .next { s with out := s.out ++ [s.regs[a.toNat]], pc := s.pc + 2 }) ∧
    (8 ≤ a.toNat → exec (.prn a) s = raise s .invalidRegister)

/-- 42_alu.md R150. The fetch clause of each instruction is `FetchRule`, from the instruction's own pseudocode. -/
def Obligations.MulMultipliesModulo256 : Prop :=
  ∀ (s : State) (a b : Byte), FetchRule s (.mul a b) ∧
    (∀ (ha : a.toNat < 8) (hb : b.toNat < 8), exec (.mul a b) s = .next { s with
      regs := s.regs.set a.toNat (BitVec.ofNat 8 (s.regs[a.toNat].toNat * s.regs[b.toNat].toNat % 256))
      pc := s.pc + 3 }) ∧
    (8 ≤ a.toNat ∨ 8 ≤ b.toNat → exec (.mul a b) s = raise s .invalidRegister)

/-- 42_alu.md R151. -/
def Obligations.IncAddsOneModulo256 : Prop :=
  ∀ (s : State) (a : Byte), FetchRule s (.inc a) ∧
    (∀ h : a.toNat < 8, exec (.inc a) s = .next { s with
      regs := s.regs.set a.toNat (BitVec.ofNat 8 ((s.regs[a.toNat].toNat + 1) % 256))
      pc := s.pc + 2 }) ∧
    (8 ≤ a.toNat → exec (.inc a) s = raise s .invalidRegister)

/-- 42_alu.md R152. -/
def Obligations.DecSubtractsOneModulo256 : Prop :=
  ∀ (s : State) (a : Byte), FetchRule s (.dec a) ∧
    (∀ h : a.toNat < 8, exec (.dec a) s = .next { s with
      regs := s.regs.set a.toNat (BitVec.ofInt 8 (((s.regs[a.toNat].toNat : Int) - 1) % 256))
      pc := s.pc + 2 }) ∧
    (8 ≤ a.toNat → exec (.dec a) s = raise s .invalidRegister)

/-- 42_alu.md section 2, the rule of `ADD`; its shape and pc advance are the spec's D2 (log entry 15). -/
def Obligations.AddAddsModulo256 : Prop :=
  ∀ (s : State) (a b : Byte), FetchRule s (.add a b) ∧
    (∀ (ha : a.toNat < 8) (hb : b.toNat < 8), exec (.add a b) s = .next { s with
      regs := s.regs.set a.toNat (BitVec.ofNat 8 ((s.regs[a.toNat].toNat + s.regs[b.toNat].toNat) % 256))
      pc := s.pc + 3 }) ∧
    (8 ≤ a.toNat ∨ 8 ≤ b.toNat → exec (.add a b) s = raise s .invalidRegister)

/-- 42_alu.md section 2, the rule of `SUB`; its shape and pc advance are the spec's D2 (log entry 15). -/
def Obligations.SubSubtractsModulo256 : Prop :=
  ∀ (s : State) (a b : Byte), FetchRule s (.sub a b) ∧
    (∀ (ha : a.toNat < 8) (hb : b.toNat < 8), exec (.sub a b) s = .next { s with
      regs := s.regs.set a.toNat (BitVec.ofInt 8 (((s.regs[a.toNat].toNat : Int) - s.regs[b.toNat].toNat) % 256))
      pc := s.pc + 3 }) ∧
    (8 ≤ a.toNat ∨ 8 ≤ b.toNat → exec (.sub a b) s = raise s .invalidRegister)

/-- 42_alu.md section 2, the rule of `CMP`: all three flags are written, exactly one is true afterwards. Its shape is the
spec's D2 (log entry 15), direction and signedness D16 (log entry 14). -/
def Obligations.CmpSetsExactlyOneFlag : Prop :=
  ∀ (s : State) (a b : Byte), FetchRule s (.cmp a b) ∧
    (∀ (ha : a.toNat < 8) (hb : b.toNat < 8), ∃ f : Flags,
      exec (.cmp a b) s = .next { s with fl := f, pc := s.pc + 3 } ∧
      (f.l = true ↔ s.regs[a.toNat].toNat < s.regs[b.toNat].toNat) ∧
      (f.g = true ↔ s.regs[b.toNat].toNat < s.regs[a.toNat].toNat) ∧
      (f.e = true ↔ s.regs[a.toNat] = s.regs[b.toNat]) ∧
      (f.l || f.g || f.e) = true ∧ f.Exclusive) ∧
    (8 ≤ a.toNat ∨ 8 ≤ b.toNat → exec (.cmp a b) s = raise s .invalidRegister)

/-- 43_stack.md, the rule of `PUSH`. The bound at 0 is the spec's D8 (log entry 9), the order of the two traps D11
(log entry 11), the value `PUSH R7` stores D17 (log entry 12). -/
def Obligations.PushStoresBelowTheStackPointer : Prop :=
  ∀ (s : State) (a : Byte), FetchRule s (.push a) ∧
    (∀ h : a.toNat < 8, s.regs[7].toNat ≠ 0 → exec (.push a) s = .next { s with
      regs := s.regs.set 7 (BitVec.ofNat 8 (s.regs[7].toNat - 1))
      mem := s.mem.write (s.regs[7].toNat - 1)
        (if a.toNat = 7 then BitVec.ofNat 8 (s.regs[7].toNat - 1) else s.regs[a.toNat])
      pc := s.pc + 2 }) ∧
    (8 ≤ a.toNat → exec (.push a) s = raise s .invalidRegister) ∧
    (a.toNat < 8 → s.regs[7].toNat = 0 → exec (.push a) s = raise s .outOfBounds)

/-- 43_stack.md, the rule of `POP`. The bound at 255 is the spec's D8 (log entry 9), the order of the traps D11 (log entry
11), the result of `POP R7` D17 (log entry 12). -/
def Obligations.PopLoadsFromTheStackPointer : Prop :=
  ∀ (s : State) (a : Byte), FetchRule s (.pop a) ∧
    (∀ h : a.toNat < 8, a.toNat ≠ 7 → s.regs[7].toNat ≠ 255 → exec (.pop a) s = .next { s with
      regs := (s.regs.set a.toNat (s.mem.read s.regs[7].toNat)).set 7 (BitVec.ofNat 8 (s.regs[7].toNat + 1))
      pc := s.pc + 2 }) ∧
    (a.toNat = 7 → (s.mem.read s.regs[7].toNat).toNat ≠ 255 → exec (.pop a) s = .next { s with
      regs := s.regs.set 7 (BitVec.ofNat 8 ((s.mem.read s.regs[7].toNat).toNat + 1))
      pc := s.pc + 2 }) ∧
    (8 ≤ a.toNat → exec (.pop a) s = raise s .invalidRegister) ∧
    (a.toNat < 7 → s.regs[7].toNat = 255 → exec (.pop a) s = raise s .outOfBounds) ∧
    (a.toNat = 7 → (s.mem.read s.regs[7].toNat).toNat = 255 →
      exec (.pop a) s = raise s .outOfBounds)

/-- 44_control.md R180: `HLT` has no operand and no fault, at any address; no step follows it; and it is the only way to
reach HALTED. -/
def Obligations.HltStopsTheMachine : Prop :=
  ∀ s : State, FetchRule s .hlt ∧ exec .hlt s = .next { s with st := .halted, pc := s.pc + 1 } ∧
    (∀ t u, exec .hlt s = .next t → step t ≠ .next u) ∧
    (∀ t, step s = .next t → t.st = .halted → s.pc ≤ 255 ∧ dispatch s.cfg (s.mem.read s.pc) = some .hlt)

/-- 44_control.md, the rule of `CALL`. The bound at `x[7] = 0` is the spec's D8 and at pc 254 D9 (log entry 9), the order
of the traps D11 (log entry 11), the target of `CALL R7` D17 (log entry 12). -/
def Obligations.CallPushesTheReturnAddressAndJumps : Prop :=
  ∀ (s : State) (a : Byte), FetchRule s (.call a) ∧
    (∀ h : a.toNat < 8, s.pc ≤ 253 → s.regs[7].toNat ≠ 0 → exec (.call a) s = .next { s with
      regs := s.regs.set 7 (BitVec.ofNat 8 (s.regs[7].toNat - 1))
      mem := s.mem.write (s.regs[7].toNat - 1) (BitVec.ofNat 8 (s.pc + 2))
      pc := if a.toNat = 7 then s.regs[7].toNat - 1 else s.regs[a.toNat].toNat }) ∧
    (254 ≤ s.pc ∨ s.regs[7].toNat = 0 → exec (.call a) s = raise s .outOfBounds) ∧
    (8 ≤ a.toNat → s.pc ≤ 253 → s.regs[7].toNat ≠ 0 →
      exec (.call a) s = raise s .invalidRegister)

/-- 44_control.md, the rule of `RET`. The bound at 255 is the spec's D8 (log entry 9). -/
def Obligations.RetPopsThePc : Prop :=
  ∀ s : State, FetchRule s .ret ∧
    (s.regs[7].toNat ≠ 255 → exec .ret s = .next { s with
      regs := s.regs.set 7 (BitVec.ofNat 8 (s.regs[7].toNat + 1))
      pc := (s.mem.read s.regs[7].toNat).toNat }) ∧
    (s.regs[7].toNat = 255 → exec .ret s = raise s .outOfBounds)

/-! Frames and tables, over all instructions. -/

/-- The frame on registers: an instruction changes no register outside the column "registers written" of the table of
10_state.md section 2, completing or faulting. -/
def Obligations.OnlyTheTabledRegistersAreWritten : Prop :=
  ∀ (i : Instr) (s t : State), exec i s = .next t →
    ∀ j, j ∉ registersWritten i → regRead t j = regRead s j

/-- A register outside the column "registers read" of the table of 10_state.md section 2 influences nothing but itself:
two states that differ in it alone go to states that differ in it alone. -/
def Obligations.OnlyTheTabledRegistersAreRead : Prop :=
  ∀ (i : Instr) (s : State) (j : Nat) (hj : j < 8) (v : Byte), j ∉ registersRead i →
    ∃ t u, exec i s = .next t ∧ exec i { s with regs := s.regs.set j v } = .next u ∧
      u.pc = t.pc ∧ u.fl = t.fl ∧ u.st = t.st ∧ u.mem = t.mem ∧ u.out = t.out ∧ u.cfg = t.cfg ∧
      ∀ k, k ≠ j → regRead u k = regRead t k

/-- The table of 10_state.md section 3: the new pc of every instruction, and that a step that faults leaves it. That a fault
leaves no trace is the spec's D10 (log entry 10), that `CALL` reads its target after the push D17 (log entry 12). -/
def Obligations.PcFollowsItsTable : Prop :=
  ∀ (i : Instr) (s t : State), s.st = .running → exec i s = .next t →
    ((∃ k, t.st = .faulted k) → t.pc = s.pc) ∧ ((¬∃ k, t.st = .faulted k) → pcFollowsTable s t i)

/-- The frame on memory: every address but the one stored to reads as before; only `PUSH` and `CALL` store, one byte at
`x[7] - 1` (20_memory.md section 1). -/
def Obligations.OnlyTheStoredCellChanges : Prop :=
  ∀ (i : Instr) (s t : State), exec i s = .next t →
    ∀ a : Int, storeAddress s i ≠ some a → memRead t a = memRead s a

/-- 10_state.md R31: only `CMP`, which exists only with `ALU_EXT`, writes the flags; in the base configuration they keep
their value for the whole run; and nothing reads them. -/
def Obligations.FlagsAreSetOnlyByCompareAndNeverRead : Prop :=
  (∀ s t : State, step s = .next t → t.fl ≠ s.fl →
    s.cfg.aluExt = true ∧ dispatch s.cfg (s.mem.read s.pc) = some .cmp) ∧
  (∀ s t : State, s.cfg.aluExt = false → Run s t → t.fl = s.fl) ∧
  (∀ (s t : State) (f : Flags), step s = .next t →
    ∃ g, step { s with fl := f } = .next { t with fl := g })

/-- The output is extended by at most one byte, by `PRN` alone, is never shortened and never read (10_state.md section 6;
that the machine emits bytes is the spec's D13, log entry 20). -/
def Obligations.OutputOnlyGrowsAndIsNeverRead : Prop :=
  ∀ s t : State, step s = .next t →
    ∃ e : List Byte, t.out = s.out ++ e ∧ e.length ≤ 1 ∧
      (e ≠ [] → dispatch s.cfg (s.mem.read s.pc) = some .prn) ∧
      ∀ o : List Byte, step { s with out := o } = .next { t with out := o ++ e }

/-- A step that raises a fault changes nothing but the run status: the model's state is that before the instruction
(00_scope.md section 7; the spec's D10, log entry 10). -/
def Obligations.FaultChangesOnlyTheStatus : Prop :=
  ∀ (s t : State) (k : FaultKind), step s = .next t → t.st = .faulted k →
    t = { s with st := .faulted k }

/-- The complete list of ways a program can fault, with the fault that is named when several hold
(60_exceptions.md sections 1 and 3; causes D3, D8, D9 and the order D11 are the spec's decisions, log entries 8, 9, 11). -/
def Obligations.FaultsAreExactlyThoseOfTheTables : Prop :=
  ∀ s : State, s.st = .running →
    match expectedFault s with
    | some k => step s = .next { s with st := .faulted k }
    | none => ∃ t, step s = .next t ∧ (t.st = .running ∨ t.st = .halted)

/-- No execution raises UnsupportedOperation (42_alu.md section 1, the spec's own derivation, log entry 23). -/
def Obligations.UnsupportedOperationIsNeverRaised : Prop :=
  ∀ s t : State, step s = .next t → t.st ≠ .faulted .unsupportedOperation

/-! Invariants. -/

/-- Every step keeps the invariant: canonical memory, pc at most 258 (10_state.md section 3), flags mutually exclusive
(section 4), `OPC` admissible. -/
def Obligations.StepKeepsTheInvariant : Prop :=
  ∀ s t : State, s.Inv → step s = .next t → t.Inv

/-- The reset state meets the invariant. -/
def Obligations.ResetMeetsTheInvariant : Prop := State.reset.Inv

/-- Every run of a machine created with well-formed parameters and any image keeps the invariant
(70_reset_and_hazards.md section 1, 40_execution_cycle.md section 2). -/
def Obligations.BootedRunsKeepTheInvariant : Prop :=
  ∀ (p : ResetParams) (s t : State), p.wellFormed = true → boot p = .ok s → Run s t → t.Inv

/-! Sequences of two steps. -/

/-- `PUSH Ra` followed by `POP Rb`, neither naming register 7 and neither overlapped by the stack cell, moves the value and
restores the stack pointer (43_stack.md section 3, derived there from the rules of `PUSH` and `POP`, log entry 23). -/
def Obligations.PushThenPopMovesTheValue : Prop :=
  ∀ (s : State) (a b : Byte) (ha : a.toNat < 8) (hb : b.toNat < 8), a.toNat ≠ 7 → b.toNat ≠ 7 →
    s.st = .running → s.cfg.Admissible → s.pc ≤ 252 →
    opcodeAtPc s (.push a) → operandsAtPc s (.push a) →
    memRead s (s.pc + 2 : Nat) = .ok s.cfg.opc.pop → memRead s (s.pc + 3 : Nat) = .ok b →
    s.regs[7].toNat ≠ 0 → s.regs[7].toNat - 1 ≠ s.pc + 2 → s.regs[7].toNat - 1 ≠ s.pc + 3 →
    ∃ t u, step s = .next t ∧ step t = .next u ∧
      u.regs[b.toNat] = s.regs[a.toNat] ∧ u.regs[7] = s.regs[7] ∧ u.pc = s.pc + 4 ∧ u.st = .running

/-- `CALL Ra` to an address holding `RET` resumes at the instruction after the `CALL`, with the stack pointer as before and
only the cell of the return address changed (44_control.md, derived there from the rules of `CALL` and `RET`, log entry 23). -/
def Obligations.CallToReturnResumesAfterTheCall : Prop :=
  ∀ (s : State) (a : Byte) (ha : a.toNat < 8), a.toNat ≠ 7 →
    s.st = .running → s.cfg.Admissible → s.pc ≤ 253 →
    opcodeAtPc s (.call a) → operandsAtPc s (.call a) → s.regs[7].toNat ≠ 0 →
    memRead s s.regs[a.toNat].toNat = .ok s.cfg.opc.ret → s.regs[7].toNat - 1 ≠ s.regs[a.toNat].toNat →
    ∃ t u, step s = .next t ∧ step t = .next u ∧ u.pc = s.pc + 2 ∧ u.regs[7] = s.regs[7] ∧ u.st = .running ∧
      memRead u (s.regs[7].toNat - 1 : Nat) = .ok (BitVec.ofNat 8 (s.pc + 2)) ∧
      ∀ x : Int, x ≠ (s.regs[7].toNat - 1 : Nat) → memRead u x = memRead s x

/-- A store is seen by the next fetch: a `PUSH` onto the byte that follows it makes that byte the next opcode
(20_memory.md section 3; the spec's D20, log entry 24). -/
def Obligations.PushedByteIsFetchedNext : Prop :=
  ∀ (s : State) (a : Byte) (ha : a.toNat < 8), a.toNat ≠ 7 →
    s.st = .running → s.cfg.Admissible → opcodeAtPc s (.push a) → operandsAtPc s (.push a) →
    s.regs[7].toNat = s.pc + 3 →
    ∃ t, step s = .next t ∧ t.pc = s.pc + 2 ∧ memRead t t.pc = .ok s.regs[a.toNat] ∧
      (dispatch s.cfg s.regs[a.toNat] = none → step t = .next { t with st := .faulted .invalidOpcode }) ∧
      (dispatch s.cfg s.regs[a.toNat] = some .hlt → step t = .next { t with st := .halted, pc := t.pc + 1 })

/-! Registers, memory, the ALU. -/

/-- 00_scope.md R9, R10: register read and write, the index compared in full. -/
def Obligations.RegisterAccessChecksTheWholeIndex : Prop :=
  ∀ (s : State) (i : Nat) (v : Byte),
    (∀ h : i < 8, regRead s i = .ok s.regs[i] ∧ ∃ t, regWrite s i v = .ok t ∧ regRead t i = .ok v ∧
      (∀ j, j ≠ i → regRead t j = regRead s j) ∧ t = { s with regs := t.regs }) ∧
    (8 ≤ i → regRead s i = .error .invalidRegister ∧ regWrite s i v = .error .invalidRegister)

/-- 00_scope.md R11, R12: memory read and write at an integer address, never reduced modulo 256. -/
def Obligations.MemoryAccessIsBoundsChecked : Prop :=
  ∀ (s : State) (a : Int) (v : Byte),
    (0 ≤ a → a ≤ 255 → memRead s a = .ok (s.mem.read a.toNat) ∧ ∃ t, memWrite s a v = .ok t ∧ memRead t a = .ok v ∧
      (∀ b, b ≠ a → memRead t b = memRead s b) ∧ t = { s with mem := t.mem }) ∧
    (a < 0 ∨ 255 < a → memRead s a = .error .outOfBounds ∧ memWrite s a v = .error .outOfBounds)

/-- 42_alu.md R141 to R145: the five operations that write a register, modulo 256, everything else unchanged. -/
def Obligations.AluResultsAreReducedModulo256 : Prop :=
  ∀ (s : State) (d r : Byte) (hd : d.toNat < 8) (hr : r.toNat < 8),
    alu s (.add d r) = .ok { s with
      regs := s.regs.set d.toNat (BitVec.ofNat 8 ((s.regs[d.toNat].toNat + s.regs[r.toNat].toNat) % 256)) } ∧
    alu s (.sub d r) = .ok { s with
      regs := s.regs.set d.toNat (BitVec.ofInt 8 (((s.regs[d.toNat].toNat : Int) - s.regs[r.toNat].toNat) % 256)) } ∧
    alu s (.mult d r) = .ok { s with
      regs := s.regs.set d.toNat (BitVec.ofNat 8 (s.regs[d.toNat].toNat * s.regs[r.toNat].toNat % 256)) } ∧
    alu s (.inc d) = .ok { s with
      regs := s.regs.set d.toNat (BitVec.ofNat 8 ((s.regs[d.toNat].toNat + 1) % 256)) } ∧
    alu s (.dec d) = .ok { s with
      regs := s.regs.set d.toNat (BitVec.ofInt 8 (((s.regs[d.toNat].toNat : Int) - 1) % 256)) }

/-- 42_alu.md R148: no operation but CMP reads or writes a flag, CMP writes no register, and the ALU has no other
output. -/
def Obligations.AluTouchesFlagsOnlyInCompare : Prop :=
  ∀ (s t : State) (c : AluCommand), alu s c = .ok t →
    t = { s with regs := t.regs, fl := t.fl } ∧
    (∀ a b, c = .cmp a b → t.regs = s.regs) ∧
    ((∀ a b, c ≠ .cmp a b) → t.fl = s.fl ∧ ∀ f : Flags, alu { s with fl := f } c = .ok { t with fl := f })

/-! Reset, image and status. -/

/-- The reset values of 10_state.md section 7. The source gives 0xF4 and RUNNING; 0x00 for registers 0 to 6, pc 0, flags
false and 0x00 in memory are the spec's D5, D4, D6, D7 (log entries 5, 6, 7). -/
def Obligations.ResetLeavesTheTabledValues : Prop :=
  State.reset.regs[7] = 0xF4 ∧ State.reset.st = .running ∧ State.reset.out = [] ∧
  (∀ i, i < 7 → regRead State.reset i = .ok 0) ∧ State.reset.pc = 0 ∧
  State.reset.fl = { l := false, g := false, e := false } ∧
  (∀ a : Nat, a ≤ 255 → memRead State.reset a = .ok 0)

/-- 20_memory.md R65: the image lies from address 0 in file order, each other cell holds its `MEM_FILL` byte, and loading changes
nothing else of the created machine. -/
def Obligations.ImageIsLoadedFromAddressZero : Prop :=
  ∀ p : ResetParams, p.image.length ≤ 256 →
    ∃ s, boot p = .ok s ∧ (∀ a (h : a < p.image.length), memRead s a = .ok p.image[a]) ∧
      (∀ (a : Nat) (h : a < memSize), p.image.length ≤ a → memRead s a = .ok p.memFill[a]) ∧
      s = { State.create p with mem := s.mem }

/-- An image of more than 256 bytes is the loader's OutOfBounds error and no machine is started (00_scope.md section 8,
30_encoding.md section 7; the spec's D21, log entry 17). -/
def Obligations.OversizeImageIsTheLoadersError : Prop :=
  ∀ p : ResetParams, 256 < p.image.length → boot p = .error .outOfBounds

/-- 30_encoding.md R95: only lines that begin with `0` or `1` count, text from `#` on is discarded, and the n-th
significant line gives the n-th byte, its first digit bit 7. -/
def Obligations.ImageFileLinesGiveTheBytes : Prop :=
  (∀ l : List Char, significantLine l = true ↔ ∃ rest, l = '0' :: rest ∨ l = '1' :: rest) ∧
  (∀ (before after : List (List Char)) (l : List Char), significantLine l = false →
    imageOfFile (before ++ l :: after) = imageOfFile (before ++ after)) ∧
  (∀ l comment : List Char, '#' ∉ l → lineByte (l ++ '#' :: comment) = lineByte l) ∧
  (∀ lines : List (Byte × List Char),
    imageOfFile (lines.map fun p =>
      ((List.range 8).map fun k => if p.1.getLsbD (7 - k) then '1' else '0') ++ '#' :: p.2) = some (lines.map Prod.fst))

/-- The codes of the status interface: by default 1 to 4 in the source's order of listing, and under every admissible
`FAULT_CODE` a code of its own for each kind and 0 exactly where there is no fault (60_exceptions.md section 1; the spec's
D12, log entry 19). -/
def Obligations.StatusCodesNumberTheFaults : Prop :=
  faultCode {} .invalidOpcode = 1 ∧ faultCode {} .outOfBounds = 2 ∧ faultCode {} .invalidRegister = 3 ∧
  faultCode {} .unsupportedOperation = 4 ∧
  ∀ s : State, s.cfg.faultCodes.Admissible →
    (s.statusCode = 0 ↔ s.st = .running ∨ s.st = .halted) ∧
    ∀ k, s.st = .faulted k → s.statusCode = faultCode s.cfg.faultCodes k ∧
      ∀ j, faultCode s.cfg.faultCodes j = s.statusCode → j = k
end

