-- ==== Sys2Proof/Laws/Memory.lean ====
section
/-! SUPPORT. What reading and writing one cell do, and that every memory operation keeps the canonical form. The read and
write laws hold for any list of cells, canonical or not. -/

namespace Sys2Proof.Machine

theorem Memory.read_nil (a : Nat) : Memory.read [] a = unlistedByte := rfl

theorem Memory.read_cons (c : Host.Cell) (m : Memory) (a : Nat) :
    Memory.read (c :: m) a = if a = c.1 then c.2 else Memory.read m a := by
  obtain ⟨b, v⟩ := c
  by_cases h : a = b
  · simp [Memory.read, h]
  · simp [Memory.read, List.lookup_cons, h, beq_false_of_ne h]

theorem Memory.read_filter_self (m : Memory) (a : Nat) :
    Memory.read (m.filter fun c => c.1 != a) a = unlistedByte := by
  induction m with
  | nil => rfl
  | cons c m ih =>
    by_cases h : c.1 = a
    · simpa [List.filter_cons, h] using ih
    · simpa [List.filter_cons, h, Memory.read_cons, Ne.symm h] using ih

theorem Memory.read_filter_other (m : Memory) {a b : Nat} (hab : b ≠ a) :
    Memory.read (m.filter fun c => c.1 != a) b = Memory.read m b := by
  induction m with
  | nil => rfl
  | cons c m ih =>
    by_cases h : c.1 = a
    · have hb : b ≠ c.1 := fun e => hab (e.trans h)
      rw [Memory.read_cons, if_neg hb, ← ih]
      simp [h]
    · simp only [bne_iff_ne, ne_eq, h, not_false_eq_true, List.filter_cons_of_pos, Memory.read_cons, ih]

theorem read_insertCell (c : Host.Cell) (m : Memory) (a : Nat) (hc : ∀ d ∈ m, d.1 ≠ c.1) :
    Memory.read (insertCell c m) a = if a = c.1 then c.2 else Memory.read m a := by
  induction m with
  | nil => simp [insertCell, Memory.read_cons]
  | cons d m ih =>
    have hd : d.1 ≠ c.1 := hc d (by simp)
    unfold insertCell
    split
    · rw [Memory.read_cons]
    · rw [Memory.read_cons, ih fun e he => hc e (by simp [he]), Memory.read_cons]
      by_cases h : a = d.1
      · rw [if_pos h, if_neg (fun e => hd (h.symm.trans e)), if_pos h]
      · simp only [h, if_false]

/-- Reading the written cell gives the byte written. -/
theorem Memory.read_write_self (m : Memory) (a : Nat) (v : Byte) : (m.write a v).read a = v := by
  unfold Memory.write
  split
  · next h => rw [h]; exact Memory.read_filter_self m a
  · rw [read_insertCell _ _ _ (by simp), if_pos rfl]

/-- A write leaves every other cell alone. -/
theorem Memory.read_write_other (m : Memory) {a b : Nat} (v : Byte) (h : b ≠ a) :
    (m.write a v).read b = m.read b := by
  unfold Memory.write
  split
  · exact Memory.read_filter_other m h
  · rw [read_insertCell _ _ _ (by simp), if_neg h]
    exact Memory.read_filter_other m h

/-- Both in one: what any cell holds after a write. -/
theorem Memory.read_write (m : Memory) (a b : Nat) (v : Byte) :
    (m.write a v).read b = if b = a then v else m.read b := by
  split
  · next h => rw [h]; exact Memory.read_write_self m a v
  · next h => exact Memory.read_write_other m v h

theorem mem_insertCell (c d : Host.Cell) (m : Memory) : d ∈ insertCell c m ↔ d = c ∨ d ∈ m := by
  induction m with
  | nil => simp [insertCell]
  | cons e m ih =>
    unfold insertCell
    split
    · simp
    · simp [ih, or_left_comm]

theorem pairwise_insertCell (c : Host.Cell) (m : Memory) (hm : m.Pairwise fun d e => d.1 < e.1)
    (hc : ∀ d ∈ m, d.1 ≠ c.1) : (insertCell c m).Pairwise fun d e => d.1 < e.1 := by
  induction m with
  | nil => simp [insertCell]
  | cons d m ih =>
    have hd : d.1 ≠ c.1 := hc d (by simp)
    rw [List.pairwise_cons] at hm
    unfold insertCell
    split
    · next h =>
      refine List.pairwise_cons.2 ⟨fun e he => ?_, List.pairwise_cons.2 hm⟩
      rcases List.mem_cons.1 he with rfl | he
      · omega
      · have := hm.1 e he; omega
    · next h =>
      refine List.pairwise_cons.2 ⟨fun e he => ?_, ih hm.2 fun e he => hc e (by simp [he])⟩
      rcases (mem_insertCell c e m).1 he with rfl | he
      · omega
      · exact hm.1 e he

theorem Memory.wf_nil : Memory.wf [] := ⟨List.Pairwise.nil, by simp⟩

/-- Writing a cell of the address space keeps the canonical form. -/
theorem Memory.wf_write {m : Memory} {a : Nat} (v : Byte) (hm : m.wf) (ha : a < memSize) : (m.write a v).wf := by
  have hp : (m.filter fun c => c.1 != a).Pairwise fun d e => d.1 < e.1 := hm.1.sublist List.filter_sublist
  have hw : ∀ c ∈ m.filter fun c => c.1 != a, c.1 < memSize ∧ c.2 ≠ unlistedByte := fun c hc =>
    hm.2 c (List.mem_of_mem_filter hc)
  unfold Memory.write
  split
  · exact ⟨hp, hw⟩
  · next hv =>
    refine ⟨pairwise_insertCell _ _ hp (by simp), fun c hc => ?_⟩
    rcases (mem_insertCell _ _ _).1 hc with rfl | hc
    · exact ⟨ha, hv⟩
    · exact hw c hc

/-- What the cells laid from address `a` hold: their bytes, and no cell else. -/
theorem read_cellsFrom (vs : List Byte) (a b : Nat) :
    (cellsFrom a vs).read b = if h : a ≤ b ∧ b - a < vs.length then vs[b - a] else unlistedByte := by
  induction vs generalizing a with
  | nil => simp [cellsFrom, Memory.read_nil]
  | cons v vs ih =>
    have tail : (cellsFrom (a + 1) vs).read b =
        if h : a ≤ b ∧ b - a < (v :: vs).length then if b = a then unlistedByte else (v :: vs)[b - a] else unlistedByte := by
      rw [ih]
      by_cases hb : b = a
      · subst hb; simp
      by_cases hlt : a + 1 ≤ b ∧ b - (a + 1) < vs.length
      · have e : b - a = (b - (a + 1)) + 1 := by omega
        rw [dif_pos hlt, dif_pos ⟨by omega, by rw [List.length_cons]; omega⟩, if_neg hb]
        simp only [e, List.getElem_cons_succ]
      · rw [dif_neg hlt, dif_neg (by rw [List.length_cons]; omega)]
    unfold cellsFrom
    by_cases hb : b = a
    · subst hb
      split
      · next hv => rw [tail]; simp [hv]
      · simp [Memory.read_cons]
    · split
      · rw [tail]; simp only [hb, if_false]
      · rw [Memory.read_cons, if_neg hb, tail]; simp only [hb, if_false]

/-- The addresses of laid cells, and that none of them is superfluous. -/
theorem mem_cellsFrom {vs : List Byte} {a : Nat} {c : Host.Cell} (h : c ∈ cellsFrom a vs) :
    a ≤ c.1 ∧ c.1 < a + vs.length ∧ c.2 ≠ unlistedByte := by
  induction vs generalizing a with
  | nil => cases h
  | cons v vs ih =>
    rw [List.length_cons]
    unfold cellsFrom at h
    split at h
    · have := ih h; exact ⟨by omega, by omega, this.2.2⟩
    · next hv =>
      rcases List.mem_cons.1 h with rfl | h
      · exact ⟨le_rfl, by simp, hv⟩
      · have := ih h; exact ⟨by omega, by omega, this.2.2⟩

theorem pairwise_cellsFrom (vs : List Byte) (a : Nat) : (cellsFrom a vs).Pairwise fun c d => c.1 < d.1 := by
  induction vs generalizing a with
  | nil => exact .nil
  | cons v vs ih =>
    unfold cellsFrom
    split
    · exact ih _
    · exact .cons (fun c hc => (mem_cellsFrom hc).1) (ih _)

/-- A filled memory is canonical. -/
theorem Memory.wf_filled (fill : Vector Byte memSize) : (Memory.filled fill).wf :=
  ⟨pairwise_cellsFrom _ _, fun c hc => by
    have := mem_cellsFrom hc
    rw [Vector.length_toList] at this
    exact ⟨by omega, this.2.2⟩⟩

/-- Every cell of a filled memory holds its byte. -/
theorem Memory.read_filled (fill : Vector Byte memSize) (a : Nat) (ha : a < memSize) :
    (Memory.filled fill).read a = fill[a] := by
  unfold Memory.filled
  rw [read_cellsFrom, dif_pos ⟨Nat.zero_le a, by rw [Vector.length_toList]; omega⟩]
  simp

/-- Two canonical memories whose cells read alike are the same list, so equal memories are equal data. -/
theorem Memory.ext_of_read {m n : Memory} (hm : m.wf) (hn : n.wf) (h : ∀ a, m.read a = n.read a) : m = n := by
  have key : ∀ (m : Memory), m.wf → ∀ c : Host.Cell, c ∈ m ↔ m.read c.1 = c.2 ∧ c.2 ≠ unlistedByte := by
    intro m hm c
    induction m with
    | nil => simp only [List.not_mem_nil, Memory.read_nil, false_iff, not_and, not_not]; exact Eq.symm
    | cons d m ih =>
      have hp := List.pairwise_cons.1 hm.1
      have hm' : Memory.wf m := ⟨hp.2, fun e he => hm.2 e (by simp [he])⟩
      rw [List.mem_cons, ih hm', Memory.read_cons]
      by_cases hcd : c.1 = d.1
      · rw [if_pos hcd]
        constructor
        · rintro (rfl | ⟨h1, h2⟩)
          · exact ⟨rfl, (hm.2 c (by simp)).2⟩
          · have hmem := (ih hm').2 ⟨h1, h2⟩
            have := hp.1 c hmem
            omega
        · rintro ⟨h1, _⟩
          exact .inl (Prod.ext hcd h1.symm)
      · rw [if_neg hcd]
        exact ⟨fun h => h.resolve_left fun e => hcd (congrArg Prod.fst e), .inr⟩
  have hmem : ∀ c, c ∈ m ↔ c ∈ n := fun c => by rw [key m hm, key n hn, h]
  have nodup : ∀ {m : Memory}, m.wf → m.Nodup := fun {m} hm => hm.1.imp fun {d e} hde (he : d = e) => by rw [he] at hde; omega
  have perm := (List.perm_ext_iff_of_nodup (nodup hm) (nodup hn)).2 hmem
  exact perm.eq_of_pairwise (fun a b _ _ h1 h2 => absurd h1 (by omega)) hm.1 hn.1

end Sys2Proof.Machine
end

