-- ==== Sys2Proof/Laws/State.lean ====
section
/-! SUPPORT. One lemma per field per update of State, so that no proof unfolds a record update. -/

namespace Sys2Proof.Machine

@[simp] theorem State.setRegs_regs (s : State) (r : Vector Byte numRegs) : (s.setRegs r).regs = r := rfl
@[simp] theorem State.setRegs_pc (s : State) (r : Vector Byte numRegs) : (s.setRegs r).pc = s.pc := rfl
@[simp] theorem State.setRegs_fl (s : State) (r : Vector Byte numRegs) : (s.setRegs r).fl = s.fl := rfl
@[simp] theorem State.setRegs_st (s : State) (r : Vector Byte numRegs) : (s.setRegs r).st = s.st := rfl
@[simp] theorem State.setRegs_mem (s : State) (r : Vector Byte numRegs) : (s.setRegs r).mem = s.mem := rfl
@[simp] theorem State.setRegs_out (s : State) (r : Vector Byte numRegs) : (s.setRegs r).out = s.out := rfl
@[simp] theorem State.setRegs_cfg (s : State) (r : Vector Byte numRegs) : (s.setRegs r).cfg = s.cfg := rfl

@[simp] theorem State.setPc_regs (s : State) (v : Nat) : (s.setPc v).regs = s.regs := rfl
@[simp] theorem State.setPc_pc (s : State) (v : Nat) : (s.setPc v).pc = v := rfl
@[simp] theorem State.setPc_fl (s : State) (v : Nat) : (s.setPc v).fl = s.fl := rfl
@[simp] theorem State.setPc_st (s : State) (v : Nat) : (s.setPc v).st = s.st := rfl
@[simp] theorem State.setPc_mem (s : State) (v : Nat) : (s.setPc v).mem = s.mem := rfl
@[simp] theorem State.setPc_out (s : State) (v : Nat) : (s.setPc v).out = s.out := rfl
@[simp] theorem State.setPc_cfg (s : State) (v : Nat) : (s.setPc v).cfg = s.cfg := rfl

@[simp] theorem State.setFlags_regs (s : State) (f : Flags) : (s.setFlags f).regs = s.regs := rfl
@[simp] theorem State.setFlags_pc (s : State) (f : Flags) : (s.setFlags f).pc = s.pc := rfl
@[simp] theorem State.setFlags_fl (s : State) (f : Flags) : (s.setFlags f).fl = f := rfl
@[simp] theorem State.setFlags_st (s : State) (f : Flags) : (s.setFlags f).st = s.st := rfl
@[simp] theorem State.setFlags_mem (s : State) (f : Flags) : (s.setFlags f).mem = s.mem := rfl
@[simp] theorem State.setFlags_out (s : State) (f : Flags) : (s.setFlags f).out = s.out := rfl
@[simp] theorem State.setFlags_cfg (s : State) (f : Flags) : (s.setFlags f).cfg = s.cfg := rfl

@[simp] theorem State.setStatus_regs (s : State) (k : Status) : (s.setStatus k).regs = s.regs := rfl
@[simp] theorem State.setStatus_pc (s : State) (k : Status) : (s.setStatus k).pc = s.pc := rfl
@[simp] theorem State.setStatus_fl (s : State) (k : Status) : (s.setStatus k).fl = s.fl := rfl
@[simp] theorem State.setStatus_st (s : State) (k : Status) : (s.setStatus k).st = k := rfl
@[simp] theorem State.setStatus_mem (s : State) (k : Status) : (s.setStatus k).mem = s.mem := rfl
@[simp] theorem State.setStatus_out (s : State) (k : Status) : (s.setStatus k).out = s.out := rfl
@[simp] theorem State.setStatus_cfg (s : State) (k : Status) : (s.setStatus k).cfg = s.cfg := rfl

@[simp] theorem State.setMem_regs (s : State) (m : Memory) : (s.setMem m).regs = s.regs := rfl
@[simp] theorem State.setMem_pc (s : State) (m : Memory) : (s.setMem m).pc = s.pc := rfl
@[simp] theorem State.setMem_fl (s : State) (m : Memory) : (s.setMem m).fl = s.fl := rfl
@[simp] theorem State.setMem_st (s : State) (m : Memory) : (s.setMem m).st = s.st := rfl
@[simp] theorem State.setMem_mem (s : State) (m : Memory) : (s.setMem m).mem = m := rfl
@[simp] theorem State.setMem_out (s : State) (m : Memory) : (s.setMem m).out = s.out := rfl
@[simp] theorem State.setMem_cfg (s : State) (m : Memory) : (s.setMem m).cfg = s.cfg := rfl

@[simp] theorem State.setOut_regs (s : State) (o : List Byte) : (s.setOut o).regs = s.regs := rfl
@[simp] theorem State.setOut_pc (s : State) (o : List Byte) : (s.setOut o).pc = s.pc := rfl
@[simp] theorem State.setOut_fl (s : State) (o : List Byte) : (s.setOut o).fl = s.fl := rfl
@[simp] theorem State.setOut_st (s : State) (o : List Byte) : (s.setOut o).st = s.st := rfl
@[simp] theorem State.setOut_mem (s : State) (o : List Byte) : (s.setOut o).mem = s.mem := rfl
@[simp] theorem State.setOut_out (s : State) (o : List Byte) : (s.setOut o).out = o := rfl
@[simp] theorem State.setOut_cfg (s : State) (o : List Byte) : (s.setOut o).cfg = s.cfg := rfl

end Sys2Proof.Machine
end

