-- ==== Sys2Proof/Laws/Ops.lean ====
section
/-! SUPPORT. One lemma for each shared operation saying everything it can do; proofs cite these and do not unfold the
operations. -/

namespace Sys2Proof.Machine

/-! Sequencing. -/

@[simp] theorem ok_bind {α β : Type} (a : α) (f : α → Except FaultKind β) : (Except.ok a >>= f) = f a := rfl

@[simp] theorem error_bind {α β : Type} (k : FaultKind) (f : α → Except FaultKind β) :
    ((Except.error k : Except FaultKind α) >>= f) = .error k := rfl

@[simp] theorem pure_eq_ok {α : Type} (a : α) : (pure a : Except FaultKind α) = .ok a := rfl

theorem bind_eq_ok {α β : Type} {x : Except FaultKind α} {f : α → Except FaultKind β} {b : β} :
    (x >>= f) = .ok b ↔ ∃ a, x = .ok a ∧ f a = .ok b := by
  cases x <;> simp

/-- Completing answers a next state always: the finished one, or the state before with only `st` changed. -/
theorem complete_eq_next {s t : State} {r : Except FaultKind State} :
    complete s r = .next t ↔ r = .ok t ∨ ∃ k, r = .error k ∧ t = { s with st := .faulted k } := by
  cases r with
  | ok u => simp [complete]
  | error k => simp [complete, raise, State.setStatus, eq_comm]

@[simp] theorem complete_ok (s t : State) : complete s (.ok t) = .next t := rfl

@[simp] theorem complete_error (s : State) (k : FaultKind) : complete s (.error k) = raise s k := rfl

/-- Raising a fault changes `st` alone. -/
theorem raise_eq_next (s : State) (k : FaultKind) : raise s k = .next { s with st := .faulted k } := rfl

/-! Registers. -/

theorem regRead_of_lt (s : State) {i : Nat} (h : i < numRegs) : regRead s i = .ok s.regs[i] := dif_pos h

theorem regRead_of_ge (s : State) {i : Nat} (h : ¬i < numRegs) : regRead s i = .error .invalidRegister := dif_neg h

theorem regWrite_of_lt (s : State) {i : Nat} (v : Byte) (h : i < numRegs) :
    regWrite s i v = .ok { s with regs := s.regs.set i v } := dif_pos h

theorem regWrite_of_ge (s : State) {i : Nat} (v : Byte) (h : ¬i < numRegs) :
    regWrite s i v = .error .invalidRegister := dif_neg h

theorem regRead_eq_ok {s : State} {i : Nat} {v : Byte} :
    regRead s i = .ok v ↔ ∃ h : i < numRegs, s.regs[i] = v := by
  by_cases h : i < numRegs
  · simp only [regRead_of_lt s h, Except.ok.injEq, h, exists_true_left]
  · simp only [regRead_of_ge s h, reduceCtorEq, h, IsEmpty.exists_iff]

/-- Everything a register write that completes does. -/
theorem regWrite_eq_ok {s t : State} {i : Nat} {v : Byte} :
    regWrite s i v = .ok t ↔ ∃ h : i < numRegs, t = { s with regs := s.regs.set i v } := by
  by_cases h : i < numRegs
  · simp only [regWrite_of_lt s v h, Except.ok.injEq, h, exists_true_left, eq_comm]
  · simp only [regWrite_of_ge s v h, reduceCtorEq, h, IsEmpty.exists_iff]

/-- A register read after a register write. -/
theorem regRead_regWrite {s t : State} {i : Nat} {v : Byte} (h : regWrite s i v = .ok t) (j : Nat) :
    regRead t j = if j = i then .ok v else regRead s j := by
  by_cases hi : i < numRegs
  · rw [regWrite_of_lt s v hi] at h
    cases h
    by_cases hj : j < numRegs
    · rw [regRead_of_lt _ hj, regRead_of_lt _ hj]
      simp only [Vector.getElem_set]
      by_cases hij : i = j
      · simp [hij]
      · simp [hij, Ne.symm hij]
    · have hij : j ≠ i := fun e => hj (by rw [e]; exact hi)
      rw [regRead_of_ge _ hj, regRead_of_ge _ hj, if_neg hij]
  · rw [regWrite_of_ge s v hi] at h
    cases h

/-! Memory. -/

theorem memRead_of_lt (s : State) {a : Nat} (h : a < memSize) : memRead s a = .ok (s.mem.read a) := if_pos h

theorem memRead_of_ge (s : State) {a : Nat} (h : ¬a < memSize) : memRead s a = .error .outOfBounds := if_neg h

theorem memRead_of_not {s : State} {a : Int} (h : ¬(0 ≤ a ∧ a < memSize)) : memRead s a = .error .outOfBounds := by
  cases a with
  | ofNat n => exact memRead_of_ge s (by simp only [Int.ofNat_eq_natCast] at h; omega)
  | negSucc n => rfl

theorem memRead_eq_ok {s : State} {a : Int} {v : Byte} :
    memRead s a = .ok v ↔ (0 ≤ a ∧ a < memSize) ∧ s.mem.read a.toNat = v := by
  by_cases h : 0 ≤ a ∧ a < memSize
  · obtain ⟨n, rfl⟩ := Int.eq_ofNat_of_zero_le h.1
    rw [memRead_of_lt s (by omega)]
    simp only [Except.ok.injEq, h, and_self, true_and, Int.toNat_natCast]
  · rw [memRead_of_not h]
    simp only [reduceCtorEq, h, false_and]

theorem memWrite_of_lt (s : State) {a : Nat} (v : Byte) (h : a < memSize) :
    memWrite s a v = .ok { s with mem := s.mem.write a v } := if_pos h

theorem memWrite_of_not {s : State} {a : Int} (v : Byte) (h : ¬(0 ≤ a ∧ a < memSize)) :
    memWrite s a v = .error .outOfBounds := by
  cases a with
  | ofNat n => exact if_neg (by simp only [Int.ofNat_eq_natCast] at h; omega)
  | negSucc n => rfl

theorem memWrite_eq_ok {s t : State} {a : Int} {v : Byte} :
    memWrite s a v = .ok t ↔ (0 ≤ a ∧ a < memSize) ∧ t = { s with mem := s.mem.write a.toNat v } := by
  by_cases h : 0 ≤ a ∧ a < memSize
  · obtain ⟨n, rfl⟩ := Int.eq_ofNat_of_zero_le h.1
    rw [memWrite_of_lt s v (by omega)]
    simp only [Except.ok.injEq, h, and_self, true_and, Int.toNat_natCast, eq_comm]
  · rw [memWrite_of_not v h]
    simp only [reduceCtorEq, h, false_and]

/-- `memRead` looks at nothing but memory. -/
theorem memRead_congr {s t : State} (h : t.mem = s.mem) (a : Int) : memRead t a = memRead s a := by
  unfold memRead; rw [h]

/-! Operands and the stack micro-operations. -/

theorem stackPointer_le (s : State) : (stackPointer s).toNat ≤ 255 := by
  have := (stackPointer s).isLt
  omega

theorem popRead (s : State) : memRead s (popAddress s) = .ok (s.mem.read (stackPointer s).toNat) :=
  memRead_of_lt s (by have := stackPointer_le s; simp only [memSize]; omega)

theorem pushAddress_toNat (s : State) : (pushAddress s).toNat = (stackPointer s).toNat - 1 := by
  simp only [pushAddress]; omega

theorem ofInt_pushAddress {s : State} (h : (stackPointer s).toNat ≠ 0) :
    BitVec.ofInt 8 (pushAddress s) = BitVec.ofNat 8 ((stackPointer s).toNat - 1) := by
  have h' : pushAddress s = (((stackPointer s).toNat - 1 : Nat) : Int) := by simp only [pushAddress]; omega
  rw [h', BitVec.ofInt_natCast]

/-- A push with `x[7] = 0` faults. -/
theorem pushValue_of_zero {s : State} (v : Byte) (h : (stackPointer s).toNat = 0) :
    pushValue s v = .error .outOfBounds := by
  unfold pushValue
  rw [memWrite_of_not v (by simp [pushAddress, h])]
  rfl

/-- A push with `x[7]` not 0 writes the cell below and lowers register 7. -/
theorem pushValue_of_ne {s : State} (v : Byte) (h : (stackPointer s).toNat ≠ 0) :
    pushValue s v = .ok { s with
      regs := s.regs.set 7 (BitVec.ofNat 8 ((stackPointer s).toNat - 1))
      mem := s.mem.write ((stackPointer s).toNat - 1) v } := by
  have hle := stackPointer_le s
  have h' : pushAddress s = (((stackPointer s).toNat - 1 : Nat) : Int) := by simp only [pushAddress]; omega
  have hlt : (stackPointer s).toNat - 1 < memSize := by simp only [memSize]; omega
  unfold pushValue
  rw [ofInt_pushAddress h, h', memWrite_of_lt s v hlt]
  rfl

/-- Everything a push that completes does. -/
theorem pushValue_eq_ok {s t : State} {v : Byte} :
    pushValue s v = .ok t ↔ (stackPointer s).toNat ≠ 0 ∧ t = { s with
      regs := s.regs.set 7 (BitVec.ofNat 8 ((stackPointer s).toNat - 1))
      mem := s.mem.write ((stackPointer s).toNat - 1) v } := by
  by_cases h : (stackPointer s).toNat = 0
  · simp only [pushValue_of_zero v h, reduceCtorEq, h, ne_eq, not_true_eq_false, false_and]
  · simp only [pushValue_of_ne v h, Except.ok.injEq, ne_eq, h, not_false_eq_true, true_and, eq_comm]

theorem spInc_of_max {s : State} (h : (stackPointer s).toNat = 255) : spInc s = .error .outOfBounds := by
  simp [spInc, h]

theorem spInc_of_ne {s : State} (h : (stackPointer s).toNat ≠ 255) :
    spInc s = .ok { s with regs := s.regs.set 7 (BitVec.ofNat 8 ((stackPointer s).toNat + 1)) } := by
  have hle := stackPointer_le s
  have h' : ¬255 < (stackPointer s).toNat + 1 := by omega
  simp only [spInc, h', if_false]
  rfl

/-- Everything a stack pointer increment that completes does. -/
theorem spInc_eq_ok {s t : State} :
    spInc s = .ok t ↔ (stackPointer s).toNat ≠ 255 ∧
      t = { s with regs := s.regs.set 7 (BitVec.ofNat 8 ((stackPointer s).toNat + 1)) } := by
  by_cases h : (stackPointer s).toNat = 255
  · simp only [spInc_of_max h, reduceCtorEq, h, ne_eq, not_true_eq_false, false_and]
  · simp only [spInc_of_ne h, Except.ok.injEq, ne_eq, h, not_false_eq_true, true_and, eq_comm]

theorem stackPointer_set_self (s : State) (v : Byte) : stackPointer { s with regs := s.regs.set 7 v } = v := by
  simp [stackPointer]

theorem stackPointer_set_ne (s : State) {i : Nat} (h : i < numRegs) (v : Byte) (h7 : i ≠ 7) :
    stackPointer { s with regs := s.regs.set i v } = stackPointer s := by
  simp [stackPointer, h7]

/-! The ALU. -/

/-- A reduced natural result. -/
theorem wrapByte_natCast (n : Nat) : wrapByte (n : Int) = BitVec.ofNat 8 (n % 256) := by
  apply BitVec.eq_of_toNat_eq
  simp [wrapByte]

/-- Reducing twice is reducing once. -/
theorem wrapByte_emod (n : Int) : wrapByte n = BitVec.ofInt 8 (n % 256) := by
  apply BitVec.eq_of_toNat_eq
  simp [wrapByte, BitVec.toNat_ofInt]

theorem aluBinary_of_lt (f : Int → Int → Int) (s : State) {dst src : Byte} (hd : dst.toNat < numRegs)
    (hs : src.toNat < numRegs) :
    aluBinary f s dst src = .ok { s with
      regs := s.regs.set dst.toNat (wrapByte (f s.regs[dst.toNat].toNat s.regs[src.toNat].toNat)) } := by
  simp only [aluBinary, readOperand, writeOperand, regRead_of_lt s hd, regRead_of_lt s hs, ok_bind]
  exact regWrite_of_lt s _ hd

theorem aluBinary_of_ge (f : Int → Int → Int) (s : State) {dst src : Byte}
    (h : ¬(dst.toNat < numRegs ∧ src.toNat < numRegs)) : aluBinary f s dst src = .error .invalidRegister := by
  by_cases hd : dst.toNat < numRegs
  · have hs : ¬src.toNat < numRegs := fun hs => h ⟨hd, hs⟩
    simp only [aluBinary, readOperand, regRead_of_lt s hd, regRead_of_ge s hs, ok_bind, error_bind]
  · simp only [aluBinary, readOperand, regRead_of_ge s hd, error_bind]

theorem aluUnary_of_lt (f : Int → Int) (s : State) {dst : Byte} (hd : dst.toNat < numRegs) :
    aluUnary f s dst = .ok { s with regs := s.regs.set dst.toNat (wrapByte (f s.regs[dst.toNat].toNat)) } := by
  simp only [aluUnary, readOperand, writeOperand, regRead_of_lt s hd, ok_bind]
  exact regWrite_of_lt s _ hd

theorem aluUnary_of_ge (f : Int → Int) (s : State) {dst : Byte} (hd : ¬dst.toNat < numRegs) :
    aluUnary f s dst = .error .invalidRegister := by
  simp only [aluUnary, readOperand, regRead_of_ge s hd, error_bind]

theorem aluCompare_of_lt (s : State) {a b : Byte} (ha : a.toNat < numRegs) (hb : b.toNat < numRegs) :
    aluCompare s a b = .ok { s with fl := compareFlags s.regs[a.toNat] s.regs[b.toNat] } := by
  simp only [aluCompare, readOperand, regRead_of_lt s ha, regRead_of_lt s hb, ok_bind, pure_eq_ok]
  rfl

theorem aluCompare_of_ge (s : State) {a b : Byte} (h : ¬(a.toNat < numRegs ∧ b.toNat < numRegs)) :
    aluCompare s a b = .error .invalidRegister := by
  by_cases ha : a.toNat < numRegs
  · have hb : ¬b.toNat < numRegs := fun hb => h ⟨ha, hb⟩
    simp only [aluCompare, readOperand, regRead_of_lt s ha, regRead_of_ge s hb, ok_bind, error_bind]
  · simp only [aluCompare, readOperand, regRead_of_ge s ha, error_bind]

/-- An ALU operation that completes changes registers and flags alone. -/
theorem alu_frame {s t : State} {c : AluCommand} (h : alu s c = .ok t) : t = { s with regs := t.regs, fl := t.fl } := by
  cases c <;>
    simp only [alu, aluBinary, aluUnary, aluCompare, bind_eq_ok, writeOperand, pure_eq_ok, Except.ok.injEq] at h
  case cmp => obtain ⟨_, _, _, _, rfl⟩ := h; rfl
  case inc => obtain ⟨_, _, h⟩ := h; obtain ⟨_, rfl⟩ := regWrite_eq_ok.1 h; rfl
  case dec => obtain ⟨_, _, h⟩ := h; obtain ⟨_, rfl⟩ := regWrite_eq_ok.1 h; rfl
  all_goals obtain ⟨_, _, _, _, h⟩ := h; obtain ⟨_, rfl⟩ := regWrite_eq_ok.1 h; rfl

theorem compareFlags_exclusive (va vb : Byte) : (compareFlags va vb).Exclusive := by
  simp only [Flags.Exclusive, compareFlags, decide_eq_true_eq]
  omega

end Sys2Proof.Machine
end

