-- ==== Sys2Proof/Laws/Boot.lean ====
section
/-! SUPPORT. What the loader does, that it keeps the canonical form, and that the reset memory has it. -/

namespace Sys2Proof.Machine

theorem create_mem_wf (p : ResetParams) : (State.create p).mem.wf := Memory.wf_filled p.memFill

theorem cellsFrom_replicate (n a : Nat) : cellsFrom a (List.replicate n unlistedByte) = [] := by
  induction n generalizing a with
  | zero => rfl
  | succ n ih => rw [List.replicate_succ, cellsFrom, if_pos rfl, ih]

/-- The reset state is the machine created with the default parameters. -/
theorem reset_eq_create : State.reset = State.create defaultResetParams := by
  have h : Memory.filled (Vector.replicate memSize 0) = [] := by
    rw [Memory.filled, Vector.toList_replicate]
    exact cellsFrom_replicate memSize 0
  unfold State.reset State.create resetMem
  rw [show defaultResetParams.memFill = Vector.replicate memSize 0 from rfl, h]

/-- With the default parameters, booting is loading the image into the reset state. -/
theorem boot_default (image : List Byte) :
    boot { defaultResetParams with image := image } = loadFrom loadOrigin image State.reset := by
  rw [reset_eq_create]; rfl

theorem reset_mem_wf : State.reset.mem.wf := Memory.wf_nil

/-- Loading within memory changes memory alone: the loaded cells hold the image, the others what they held. -/
theorem loadFrom_of_le (bs : List Byte) (a : Nat) (s : State) (h : a + bs.length ≤ memSize) :
    ∃ m, loadFrom a bs s = .ok { s with mem := m } ∧
      ∀ b, m.read b = if hb : a ≤ b ∧ b - a < bs.length then bs[b - a] else s.mem.read b := by
  induction bs generalizing a s with
  | nil => exact ⟨s.mem, rfl, fun b => by simp⟩
  | cons v bs ih =>
    rw [List.length_cons] at h
    obtain ⟨m, hm, hr⟩ := ih (a + 1) { s with mem := s.mem.write a v } (by omega)
    refine ⟨m, ?_, fun b => ?_⟩
    · simp only [loadFrom, memWrite_of_lt s v (show a < memSize by omega), ok_bind]
      exact hm
    · rw [hr b]
      by_cases hab : b = a
      · subst hab
        simp [Memory.read_write_self, show ¬b + 1 ≤ b by omega]
      · by_cases hlt : a + 1 ≤ b ∧ b - (a + 1) < bs.length
        · have e : b - a = (b - (a + 1)) + 1 := by omega
          have h2 : a ≤ b ∧ b - a < (v :: bs).length := by rw [List.length_cons]; omega
          rw [dif_pos hlt, dif_pos h2]
          simp only [e, List.getElem_cons_succ]
        · have h2 : ¬(a ≤ b ∧ b - a < (v :: bs).length) := by rw [List.length_cons]; omega
          rw [dif_neg hlt, dif_neg h2]
          exact Memory.read_write_other _ v hab

/-- Loading keeps the canonical form. -/
theorem wf_loadFrom (bs : List Byte) (a : Nat) (s t : State) (hs : s.mem.wf) (h : loadFrom a bs s = .ok t) :
    t.mem.wf := by
  induction bs generalizing a s with
  | nil => cases h; exact hs
  | cons v bs ih =>
    obtain ⟨u, hu, ht⟩ := bind_eq_ok.1 h
    obtain ⟨hb, rfl⟩ := memWrite_eq_ok.1 hu
    exact ih _ _ (Memory.wf_write v hs (by omega)) ht

end Sys2Proof.Machine
end

