-- ==== Sys2Proof/Laws/Decode.lean ====
section
/-! SUPPORT. What dispatch and operand taking do, and which bytes an encoding has. -/

namespace Sys2Proof

/-- What dispatch answers is dispatched and has that byte. -/
theorem dispatch_eq_some {c : Config} {op : Byte} {m : Mnemonic} (h : dispatch c op = some m) :
    m ∈ dispatched c.aluExt ∧ c.opc.byteOf m = op := by
  unfold dispatch at h
  exact ⟨List.mem_of_find?_eq_some h, by simpa using List.find?_some h⟩

theorem dispatch_eq_none {c : Config} {op : Byte} :
    dispatch c op = none ↔ ∀ m ∈ dispatched c.aluExt, c.opc.byteOf m ≠ op := by
  simp [dispatch]

/-- With an injective `OPC`, two dispatched mnemonics of one byte are one mnemonic. -/
theorem byteOf_injective {c : Config} (hc : c.Admissible) {m n : Mnemonic} (hm : m ∈ dispatched c.aluExt)
    (hn : n ∈ dispatched c.aluExt) (h : c.opc.byteOf m = c.opc.byteOf n) : m = n :=
  List.inj_on_of_nodup_map hc hm hn h

/-- With an injective `OPC`, dispatch finds the mnemonic of a byte. -/
theorem dispatch_byteOf {c : Config} (hc : c.Admissible) {m : Mnemonic} (hm : m ∈ dispatched c.aluExt) :
    dispatch c (c.opc.byteOf m) = some m := by
  cases h : dispatch c (c.opc.byteOf m) with
  | none => exact absurd rfl (dispatch_eq_none.1 h m hm)
  | some n =>
    obtain ⟨hn, hb⟩ := dispatch_eq_some h
    rw [byteOf_injective hc hn hm hb]

theorem mem_dispatched_of_wellFormed {c : Config} {i : Instr} (h : i.wellFormed c = true) :
    i.mnemonic ∈ dispatched c.aluExt := by
  simpa [Instr.wellFormed] using h

/-- An encoding is the opcode byte and the operands. -/
theorem encode_eq (o : OpcodeMap) (i : Instr) : encode o i = o.byteOf i.mnemonic :: i.operands := by
  cases i <;> rfl

theorem length_eq_operands (i : Instr) : i.length = i.operands.length + 1 := by
  cases i <;> rfl

/-- Taking the operands of `i` from its own operand bytes gives `i`. -/
theorem takeOperands_operands (i : Instr) (rest : List Byte) :
    takeOperands i.mnemonic (i.operands ++ rest) = some (i, rest) := by
  cases i <;> rfl

/-- What taking operands answers has that mnemonic and those operand bytes. -/
theorem takeOperands_eq_some {m : Mnemonic} {bs rest : List Byte} {i : Instr}
    (h : takeOperands m bs = some (i, rest)) : i.mnemonic = m ∧ bs = i.operands ++ rest := by
  unfold takeOperands at h
  split at h <;> first | (cases h; exact ⟨rfl, rfl⟩) | exact absurd h (by simp)

/-- Operands are missing exactly where there are fewer bytes than the format has. -/
theorem takeOperands_eq_none (m : Mnemonic) (bs : List Byte) :
    takeOperands m bs = none ↔ bs.length + 1 < m.length := by
  cases m <;> rcases bs with _ | ⟨a, _ | ⟨b, bs⟩⟩ <;>
    simp [takeOperands, Mnemonic.length, Mnemonic.format, Format.length]

end Sys2Proof
end

