-- ==== Sys2Proof/Laws/Fetch.lean ====
section
/-! SUPPORT. What fetching does, by the place of the pc, and what a step can do. -/

namespace Sys2Proof.Machine

theorem bytesFrom_zero (s : State) (a : Nat) : bytesFrom s 0 a = [] := rfl

theorem bytesFrom_succ_of_lt (s : State) (n a : Nat) (ha : a < memSize) :
    bytesFrom s (n + 1) a = s.mem.read a :: bytesFrom s n (a + 1) := by
  have h := memRead_of_lt s ha
  rw [bytesFrom, h]

theorem bytesFrom_succ_of_ge (s : State) (n a : Nat) (ha : ¬a < memSize) :
    bytesFrom s (n + 1) a = [] := by
  have h := memRead_of_ge s ha
  rw [bytesFrom, h]

/-- The bytes fetched are those of the addresses inside memory. -/
theorem bytesFrom_eq (s : State) (n a : Nat) :
    bytesFrom s n a = (List.range (min n (memSize - a))).map fun k => s.mem.read (a + k) := by
  induction n generalizing a with
  | zero => rw [Nat.zero_min]; rfl
  | succ n ih =>
    by_cases ha : a < memSize
    · have e : min (n + 1) (memSize - a) = min n (memSize - (a + 1)) + 1 := by omega
      rw [bytesFrom_succ_of_lt s n a ha, ih, e, List.range_succ_eq_map, List.map_cons, List.map_map]
      simp only [Nat.add_zero, List.cons.injEq, true_and]
      apply List.map_congr_left
      intro k _
      simp only [Function.comp, Nat.succ_eq_add_one, Nat.add_comm, Nat.add_left_comm]
    · have e : min (n + 1) (memSize - a) = 0 := by omega
      rw [bytesFrom_succ_of_ge s n a ha, e]
      rfl

/-- The fetch of a step by the place of the pc: above memory, an undispatched byte, operands above memory, or the
instruction whose bytes stand there. -/
theorem fetch_eq (s : State) :
    fetch s =
      if 255 < s.pc then .error .outOfBounds
      else match dispatch s.cfg (s.mem.read s.pc) with
        | none => .error .invalidOpcode
        | some m =>
          if 256 < s.pc + m.length then .error .outOfBounds
          else match takeOperands m [s.mem.read (s.pc + 1), s.mem.read (s.pc + 2)] with
            | none => .error .outOfBounds
            | some r => .ok r.1 := by
  unfold fetch fetchBytes
  by_cases h0 : 255 < s.pc
  · rw [if_pos h0, bytesFrom_eq, show min 3 (memSize - s.pc) = 0 by simp only [memSize]; omega]
    rfl
  rw [if_neg h0]
  by_cases h1 : s.pc = 255
  · rw [bytesFrom_eq, show min 3 (memSize - s.pc) = 1 by simp only [memSize]; omega]
    simp only [List.range_one, List.map_cons, List.map_nil, Nat.add_zero, decode]
    cases hd : dispatch s.cfg (s.mem.read s.pc) with
    | none => rfl
    | some m => cases m <;> simp [takeOperands, fetchFault, Mnemonic.length, Mnemonic.format, Format.length, h1]
  by_cases h2 : s.pc = 254
  · rw [bytesFrom_eq, show min 3 (memSize - s.pc) = 2 by simp only [memSize]; omega]
    simp only [show List.range 2 = [0, 1] from rfl, List.map_cons, List.map_nil, Nat.add_zero, decode]
    cases hd : dispatch s.cfg (s.mem.read s.pc) with
    | none => rfl
    | some m => cases m <;> simp [takeOperands, fetchFault, Mnemonic.length, Mnemonic.format, Format.length, h2]
  · rw [bytesFrom_eq, show min 3 (memSize - s.pc) = 3 by simp only [memSize]; omega]
    simp only [show List.range 3 = [0, 1, 2] from rfl, List.map_cons, List.map_nil, Nat.add_zero, decode]
    cases hd : dispatch s.cfg (s.mem.read s.pc) with
    | none => rfl
    | some m =>
      have hm : ¬256 < s.pc + m.length := by
        have : m.length ≤ 3 := by cases m <;> decide
        omega
      simp only [hm, if_false]
      cases m <;> rfl

/-- A fetch that gives `i`: the opcode byte and the operand bytes of `i` stand at the pc, inside memory. -/
theorem fetch_eq_ok {s : State} {i : Instr} (h : fetch s = .ok i) :
    s.pc + i.length ≤ 256 ∧ i.mnemonic ∈ dispatched s.cfg.aluExt ∧ dispatch s.cfg (s.mem.read s.pc) = some i.mnemonic ∧
      ∃ rest, [s.mem.read (s.pc + 1), s.mem.read (s.pc + 2)] = i.operands ++ rest := by
  rw [fetch_eq] at h
  split at h
  · cases h
  · split at h
    · cases h
    · next m hd =>
      split at h
      · cases h
      · next hm =>
        split at h
        · cases h
        · next r hr =>
          cases h
          obtain ⟨e, hb⟩ := takeOperands_eq_some (i := r.1) (rest := r.2) hr
          subst e
          exact ⟨by simp only [Instr.length]; omega, (dispatch_eq_some hd).1, hd, r.2, hb⟩

/-- What a step that answers a next state did: from RUNNING, it executed the fetched instruction, or it raised the
fetch's fault, changing nothing but `st`. -/
theorem step_eq_next {s t : State} (h : step s = .next t) :
    s.st = .running ∧ ((∃ i, fetch s = .ok i ∧ exec i s = .next t) ∨
      ∃ k, fetch s = .error k ∧ t = { s with st := .faulted k }) := by
  unfold step at h
  split at h
  · next hs =>
    refine ⟨hs, ?_⟩
    split at h
    · next i hi => exact .inl ⟨i, hi, h⟩
    · next k hk => exact .inr ⟨k, hk, by cases h; rfl⟩
  · cases h
  · cases h

theorem step_of_fetch_ok {s : State} {i : Instr} (hs : s.st = .running) (h : fetch s = .ok i) : step s = exec i s := by
  simp only [step, hs, h]

theorem step_of_fetch_error {s : State} {k : FaultKind} (hs : s.st = .running) (h : fetch s = .error k) :
    step s = raise s k := by
  simp only [step, hs, h]

theorem wf_placeBytes (bs : List Byte) : ∀ (a : Nat) (m : Memory), m.wf → (placeBytes a bs m).wf := by
  induction bs with
  | nil => exact fun _ _ h => h
  | cons b bs ih =>
    intro a m h
    unfold placeBytes
    split
    · next ha => exact ih _ _ (Memory.wf_write b h ha)
    · exact h

end Sys2Proof.Machine
end

