-- ==== Sys2Proof/Laws/PerInstr.lean ====
section
/-! SUPPORT. Statements about each instruction as syntax, one lemma per constructor. Family `Encoding`: the encoding is the
opcode byte of the mnemonic and the operand bytes in order (30_encoding.md R81, R90), of the table's length (R88), and
taking operands reads it back. -/

namespace Sys2Proof.Laws.Encoding

/-- The shape of the encoding of `i`, under any `OPC`. -/
def Statement (i : Instr) : Prop :=
  ∀ (o : OpcodeMap) (rest : List Byte),
    encode o i = o.byteOf i.mnemonic :: i.operands ∧ (encode o i).length = i.length ∧
      takeOperands i.mnemonic (i.operands ++ rest) = some (i, rest)

theorem ldi (a v : Byte) : Statement (.ldi a v) := fun _ _ => ⟨rfl, rfl, rfl⟩
theorem prn (a : Byte) : Statement (.prn a) := fun _ _ => ⟨rfl, rfl, rfl⟩
theorem mul (a b : Byte) : Statement (.mul a b) := fun _ _ => ⟨rfl, rfl, rfl⟩
theorem inc (a : Byte) : Statement (.inc a) := fun _ _ => ⟨rfl, rfl, rfl⟩
theorem dec (a : Byte) : Statement (.dec a) := fun _ _ => ⟨rfl, rfl, rfl⟩
theorem push (a : Byte) : Statement (.push a) := fun _ _ => ⟨rfl, rfl, rfl⟩
theorem pop (a : Byte) : Statement (.pop a) := fun _ _ => ⟨rfl, rfl, rfl⟩
theorem hlt : Statement .hlt := fun _ _ => ⟨rfl, rfl, rfl⟩
theorem call (a : Byte) : Statement (.call a) := fun _ _ => ⟨rfl, rfl, rfl⟩
theorem ret : Statement .ret := fun _ _ => ⟨rfl, rfl, rfl⟩
theorem add (a b : Byte) : Statement (.add a b) := fun _ _ => ⟨rfl, rfl, rfl⟩
theorem sub (a b : Byte) : Statement (.sub a b) := fun _ _ => ⟨rfl, rfl, rfl⟩
theorem cmp (a b : Byte) : Statement (.cmp a b) := fun _ _ => ⟨rfl, rfl, rfl⟩

end Sys2Proof.Laws.Encoding
end

