-- ==== Sys2Proof/Laws/Run.lean ====
section
/-! SUPPORT. How the host's iterated step unfolds, and runs extended at their first step. -/

namespace Sys2Proof.Machine

theorem coreRun_succ (M : Host.Core) (n : Nat) (s : M.State) :
    M.run (n + 1) s =
      match M.step s with
      | .next t => M.run n t
      | .fault r => .fault r
      | .refused r => .refused r := rfl

/-- The iterated step of this machine, by what its first step answers. -/
theorem run_succ_of_next {n : Nat} {s t : State} (h : step s = .next t) :
    Sys2Proof.core.run (n + 1) s = Sys2Proof.core.run n t := by
  have e := coreRun_succ Sys2Proof.core n s
  rw [show Sys2Proof.core.step s = .next t from h] at e
  exact e

theorem run_succ_of_fault {n : Nat} {s : State} {r : Fault} (h : step s = .fault r) :
    Sys2Proof.core.run (n + 1) s = .fault r := by
  have e := coreRun_succ Sys2Proof.core n s
  rw [show Sys2Proof.core.step s = .fault r from h] at e
  exact e

theorem run_succ_of_refused {n : Nat} {s : State} {r : Refusal} (h : step s = .refused r) :
    Sys2Proof.core.run (n + 1) s = .refused r := by
  have e := coreRun_succ Sys2Proof.core n s
  rw [show Sys2Proof.core.step s = .refused r from h] at e
  exact e

/-- A run extended by a step before its first. -/
theorem Run.head {s t u : State} (h : step s = .next t) (r : Run t u) : Run s u := by
  induction r with
  | refl => exact .tail (.refl s) h
  | tail _ hl ih => exact .tail ih hl

end Sys2Proof.Machine
end

