-- ==== Sys2Proof/Tests/Slice0.lean ====
section
/-! SUPPORT. The model's own tests: ill-formed terms refused, words written out from the spec's encodings, single steps
from the derived vectors V<n> of 95_test_vectors.md, and a witness for the hypotheses of every statement. Expected values
are the spec's. -/

set_option linter.unusedVariables false

namespace Sys2Proof.Tests

open Sys2Proof.Machine

/-- The default machine at `pc` with bytes stored from there; the rest is the reset state (95_test_vectors.md,
conventions). -/
def board (pc : Nat) (bytes : List Byte) : State :=
  { State.reset with pc := pc, mem := placeBytes pc bytes [] }

/-- The same with `ALU_EXT` true. -/
def extBoard (pc : Nat) (bytes : List Byte) : State := { board pc bytes with cfg := tableConfig }

/-- Register `i` holds `v`. -/
def withReg (i : Nat) (v : Byte) (s : State) : State := { s with regs := s.regs.setIfInBounds i v }

/-- Cell `a` holds `v`. -/
def withCell (a : Nat) (v : Byte) (s : State) : State := { s with mem := s.mem.write a v }

/-- The next state, where a step answers one. -/
def after (s : State) : Option State :=
  match step s with
  | .next t => some t
  | .fault _ => none
  | .refused _ => none

/-- One step leaves the state as it was but for the fault. -/
abbrev faultsWith (s : State) (k : FaultKind) : Prop := after s = some { s with st := .faulted k }

/-! Ill-formed terms, one for each check. -/

theorem test_admissible_refuses_a_shared_byte :
    ¬Config.Admissible { opc := { defaultOpcodeMap with ret := 0x01 }, aluExt := false } := by decide

theorem test_admissible_refuses_a_shared_optional_byte :
    ¬Config.Admissible { opc := { defaultOpcodeMap with cmp := 0x01 }, aluExt := true } ∧
      Config.Admissible { opc := { defaultOpcodeMap with cmp := 0x01 }, aluExt := false } := by decide

theorem test_wellFormed_refuses_the_optional_group :
    Instr.wellFormed defaultConfig (.add 0 1) = false ∧ Instr.wellFormed defaultConfig (.sub 0 1) = false ∧
      Instr.wellFormed defaultConfig (.cmp 0 1) = false ∧ Instr.wellFormed tableConfig (.cmp 0 1) = true := by decide

theorem test_registersValid_refuses_index_8 :
    Instr.registersValid (.mul 7 8) = false ∧ Instr.registersValid (.mul 8 7) = false ∧
      Instr.registersValid (.ldi 7 8) = true := by decide

theorem test_resetParams_refuse_a_shared_byte :
    ResetParams.wellFormed { defaultResetParams with
      cfg := { opc := { defaultOpcodeMap with ret := 0x01 }, aluExt := false } } = false := by decide

theorem test_resetParams_refuse_fault_codes :
    ResetParams.wellFormed { defaultResetParams with
      cfg := { defaultConfig with faultCodes := { outOfBounds := 1 } } } = false ∧
      ¬FaultCodes.Admissible { invalidRegister := 0 } ∧ FaultCodes.Admissible {} := by decide

theorem test_resetParams_refuse_257_bytes :
    ResetParams.wellFormed { defaultResetParams with image := List.replicate 257 0 } = false ∧
      ResetParams.wellFormed { defaultResetParams with image := List.replicate 256 0 } = true := by decide +kernel

theorem test_resetParams_refuse_two_flags :
    ResetParams.wellFormed { defaultResetParams with flReset := { l := true, g := false, e := true } } = false := by decide

theorem test_resetParams_refuse_pc_259 :
    ResetParams.wellFormed { defaultResetParams with pcReset := 259 } = false ∧
      ResetParams.wellFormed { defaultResetParams with pcReset := 258 } = true := by decide

theorem test_memory_wf_refuses :
    ¬Memory.wf [(2, 1), (1, 1)] ∧ ¬Memory.wf [(1, 1), (1, 2)] ∧ ¬Memory.wf [(1, 0)] ∧ ¬Memory.wf [(256, 1)] ∧
      Memory.wf [(0, 1), (255, 2)] := by decide

theorem test_flags_exclusive_refuses :
    ¬Flags.Exclusive { l := true, g := true, e := false } ∧ ¬Flags.Exclusive { l := true, g := false, e := true } ∧
      ¬Flags.Exclusive { l := false, g := true, e := true } := by decide

/-! Words written out from 30_encoding.md R81, R84, R93: opcode, operands in order, and a byte `FF` left over. -/

/-- `LDI R3, 0x2A` -/
theorem test_decode_ldi : decode defaultConfig [0b10000010, 3, 0x2A, 0xFF] = .ok (.ldi 3 0x2A, [0xFF]) := by decide

/-- `PRN R5` -/
theorem test_decode_prn : decode defaultConfig [0b01000111, 5, 0xFF] = .ok (.prn 5, [0xFF]) := by decide

/-- `MUL R1, R2` -/
theorem test_decode_mul : decode defaultConfig [0b10100010, 1, 2, 0xFF] = .ok (.mul 1 2, [0xFF]) := by decide

/-- `INC R6` -/
theorem test_decode_inc : decode defaultConfig [0b01100101, 6, 0xFF] = .ok (.inc 6, [0xFF]) := by decide

/-- `DEC R4` -/
theorem test_decode_dec : decode defaultConfig [0b01100110, 4, 0xFF] = .ok (.dec 4, [0xFF]) := by decide

/-- `PUSH R2` -/
theorem test_decode_push : decode defaultConfig [0b01000101, 2, 0xFF] = .ok (.push 2, [0xFF]) := by decide

/-- `POP R3` -/
theorem test_decode_pop : decode defaultConfig [0b01000110, 3, 0xFF] = .ok (.pop 3, [0xFF]) := by decide

/-- `HLT` -/
theorem test_decode_hlt : decode defaultConfig [0b00000001, 0xFF] = .ok (.hlt, [0xFF]) := by decide

/-- `CALL R1` -/
theorem test_decode_call : decode defaultConfig [0b01010000, 1, 0xFF] = .ok (.call 1, [0xFF]) := by decide

/-- `RET` -/
theorem test_decode_ret : decode defaultConfig [0b00010001, 0xFF] = .ok (.ret, [0xFF]) := by decide

/-- `ADD R0, R7` -/
theorem test_decode_add : decode tableConfig [0b10100000, 0, 7, 0xFF] = .ok (.add 0 7, [0xFF]) := by decide

/-- `SUB R7, R0` -/
theorem test_decode_sub : decode tableConfig [0b10100001, 7, 0, 0xFF] = .ok (.sub 7 0, [0xFF]) := by decide

/-- `CMP R5, R200` -/
theorem test_decode_cmp : decode tableConfig [0b10100111, 5, 200, 0xFF] = .ok (.cmp 5 200, [0xFF]) := by decide

/-- The bytes of P9 of 95_test_vectors.md from address 6, written by the encoder. -/
theorem test_encode_p9 :
    encode defaultOpcodeMap (.cmp 0 1) ++ encode defaultOpcodeMap (.add 0 1) ++ encode defaultOpcodeMap (.sub 1 0) ++
      encode defaultOpcodeMap (.prn 0) = [0xA7, 0x00, 0x01, 0xA0, 0x00, 0x01, 0xA1, 0x01, 0x00, 0x47, 0x00] := by decide

/-- The bytes of P3 and P5 of 95_test_vectors.md, written by the encoder. -/
theorem test_encode_p3_p5 :
    encode defaultOpcodeMap (.ldi 1 9) ++ encode defaultOpcodeMap (.call 1) ++ encode defaultOpcodeMap (.inc 0) ++
      encode defaultOpcodeMap .ret ++ encode defaultOpcodeMap (.push 0) ++ encode defaultOpcodeMap .hlt =
      [0x82, 0x01, 0x09, 0x50, 0x01, 0x65, 0x00, 0x11, 0x45, 0x00, 0x01] := by decide

/-- Rejected by name: V93, and a missing operand byte. -/
theorem test_decode_rejects :
    decode defaultConfig [0x02, 0, 0] = .error (.invalidOpcode 0x02) ∧
      decode defaultConfig [0x82, 9] = .error (.missingOperand .ldi) ∧ decode defaultConfig [] = .error .noOpcode := by decide

/-- The words of the table run as the first instruction after reset. -/
theorem test_withFetchWord :
    (after (State.reset.withFetchWord 24 0x080082)).map (fun t => (t.regs[0], t.pc, t.st)) = some (8, 3, .running) ∧
      (after (State.reset.withFetchWord 8 0xA7)).map (fun t => (t.fl, t.pc)) =
        some ({ l := false, g := false, e := true }, 3) := by decide

/-! Single steps, from the derived vectors. -/

/-- V2: `LDI` may write the stack pointer. -/
theorem test_ldi_sp :
    (after (board 0 [0x82, 0x07, 0x20])).map (fun t => (t.regs[7], t.pc, t.st)) = some (0x20, 3, .running) := by decide

/-- V3, V4, V5: index 8 is not masked; the operand fetch faults before the register write. -/
theorem test_ldi_faults :
    faultsWith (board 0 [0x82, 0x08, 0x01]) .invalidRegister ∧ faultsWith (board 0xFE [0x82, 0x00]) .outOfBounds ∧
      faultsWith (board 0xFE [0x82, 0x09]) .outOfBounds := by decide

/-- V7: `PRN` of the stack pointer. -/
theorem test_prn_sp :
    (after (board 0 [0x47, 0x07, 0x01])).map (fun t => (t.out, t.pc)) = some ([244], 2) := by decide

/-- V8, V9. -/
theorem test_prn_faults :
    faultsWith (board 0 [0x47, 0x08]) .invalidRegister ∧ faultsWith (board 0xFF [0x47]) .outOfBounds := by decide

/-- V22: 255 * 255 = 254 * 256 + 1. -/
theorem test_mul_wraps :
    (after (withReg 0 0xFF (withReg 1 0xFF (board 0 [0xA2, 0x00, 0x01])))).map (fun t => (t.regs[0], t.regs[1], t.pc)) =
      some (0x01, 0xFF, 3) := by decide

/-- V27: the same register twice; V32: it completes at the top of memory. -/
theorem test_mul_same_and_top :
    (after (withReg 2 0x0D (board 0 [0xA2, 0x02, 0x02]))).map (fun t => t.regs[2]) = some 0xA9 ∧
      (after (withReg 0 3 (withReg 1 4 (board 0xFD [0xA2, 0x00, 0x01])))).map (fun t => (t.regs[0], t.pc)) = some (0x0C, 0x100) := by decide

/-- V33, V35: 255 to 0, register 7 too. -/
theorem test_inc_wraps :
    (after (withReg 3 0xFF (board 0 [0x65, 0x03]))).map (fun t => (t.regs[3], t.fl, t.pc)) = some (0, State.reset.fl, 2) ∧
      (after (withReg 7 0xFF (board 0 [0x65, 0x07]))).map (fun t => (t.regs[7], t.st)) = some (0, .running) := by decide

/-- V36, V37: 0 to 255, register 7 too. -/
theorem test_dec_wraps :
    (after (board 0 [0x66, 0x03])).map (fun t => (t.regs[3], t.pc)) = some (0xFF, 2) ∧
      (after (withReg 7 0 (board 0 [0x66, 0x07]))).map (fun t => (t.regs[7], t.st)) = some (0xFF, .running) := by decide

/-- V40, V53. -/
theorem test_add_wraps :
    (after (withReg 0 0xFF (withReg 1 1 (extBoard 0 [0xA0, 0x00, 0x01])))).map (fun t => (t.regs[0], t.pc)) = some (0, 3) ∧
      (after (withReg 4 0x90 (extBoard 0 [0xA0, 0x04, 0x04]))).map (fun t => t.regs[4]) = some 0x20 := by decide

/-- V43, V45. -/
theorem test_sub_wraps :
    (after (withReg 0 5 (withReg 1 7 (extBoard 0 [0xA1, 0x00, 0x01])))).map (fun t => (t.regs[0], t.pc)) = some (0xFE, 3) ∧
      (after (withReg 0 7 (withReg 1 5 (extBoard 0 [0xA1, 0x00, 0x01])))).map (fun t => t.regs[0]) = some 2 := by decide

/-- V47, V50: 5 < 7; 128 > 127. -/
theorem test_cmp_unsigned :
    (after (withReg 0 5 (withReg 1 7 (extBoard 0 [0xA7, 0x00, 0x01])))).map (fun t => (t.fl, t.pc)) =
        some ({ l := true, g := false, e := false }, 3) ∧
      (after (withReg 0 0x80 (withReg 1 0x7F (extBoard 0 [0xA7, 0x00, 0x01])))).map (fun t => t.fl) =
        some { l := false, g := true, e := false } := by decide

/-- V56b, V56e. -/
theorem test_cmp_faults :
    faultsWith (extBoard 0 [0xA7, 0x00, 0x09]) .invalidRegister ∧ faultsWith (board 0 [0xA7, 0x00, 0x01]) .invalidOpcode := by decide

/-- V57: `PUSH R7` stores the decremented value; V59: a push to address 0. -/
theorem test_push_sp_and_zero :
    (after (board 0 [0x45, 0x07])).map (fun t => (t.mem.read 0xF3, t.regs[7], t.pc)) = some (0xF3, 0xF3, 2) ∧
      (after (withReg 7 1 (withReg 0 0xAA (board 0 [0x45, 0x00, 0x01])))).map (fun t => (t.mem.read 0, t.regs[7], t.pc)) =
        some (0xAA, 0, 2) := by decide

/-- V60, V61. -/
theorem test_push_faults :
    faultsWith (withReg 7 0 (board 3 [0x45, 0x00])) .outOfBounds ∧ faultsWith (withReg 7 0 (board 0 [0x45, 0x09])) .invalidRegister := by decide

/-- V64; V67: `POP R7` ends with the popped byte plus one. -/
theorem test_pop_values :
    (after (withReg 7 0xFE (withCell 0xFE 0x77 (board 0 [0x46, 0x00])))).map (fun t => (t.regs[0], t.regs[7], t.pc)) =
        some (0x77, 0xFF, 2) ∧
      (after (withCell 0xF4 0x10 (board 0 [0x46, 0x07]))).map (fun t => (t.regs[7], t.pc)) = some (0x11, 2) := by decide

/-- V65, V66, V69. -/
theorem test_pop_faults :
    faultsWith (withReg 7 0xFF (board 3 [0x46, 0x00])) .outOfBounds ∧
      faultsWith (withCell 0xF4 0xFF (board 0 [0x46, 0x07])) .outOfBounds ∧
      faultsWith (withReg 7 0xFF (board 0 [0x46, 0x08])) .invalidRegister := by decide

/-- V74, V95: a halted machine has no step. -/
theorem test_hlt_at_the_top :
    (after (board 0xFF [0x01])).map (fun t => (t.pc, t.st)) = some (0x100, .halted) ∧
      after { board 0 [0x01] with st := .halted } = none := by decide

/-- V77: return address 255; V81: `CALL R7` jumps to the new top of stack. -/
theorem test_call_values :
    (after (withReg 0 0xFF (board 0xFD [0x50, 0x00, 0x01]))).map (fun t => (t.mem.read 0xF3, t.regs[7], t.pc)) =
        some (0xFF, 0xF3, 0xFF) ∧
      (after (board 0 [0x50, 0x07])).map (fun t => (t.mem.read 0xF3, t.regs[7], t.pc)) = some (2, 0xF3, 0xF3) := by decide

/-- V76, V78, V79, V80. -/
theorem test_call_faults :
    faultsWith (board 0xFE [0x50, 0x00]) .outOfBounds ∧ faultsWith (board 0 [0x50, 0x08]) .invalidRegister ∧
      faultsWith (withReg 7 0 (board 0 [0x50, 0x08])) .outOfBounds ∧
      faultsWith (withReg 7 0 (board 0 [0x50, 0x00])) .outOfBounds := by decide

/-- V85, its third step: a pushed 6 is the target; V86: `RET` executes at 255. -/
theorem test_ret_pops :
    (after (withReg 7 0xF3 (withCell 0xF3 6 (board 5 [0x11])))).map (fun t => (t.regs[7], t.pc)) = some (0xF4, 6) ∧
      (after (board 0xFF [0x11])).map (fun t => (t.regs[7], t.pc)) = some (0xF5, 0) := by decide

/-- V84. -/
theorem test_ret_faults :
    faultsWith (withReg 7 0xFF (board 0 [0x11])) .outOfBounds := by decide

/-- V90, V91, V93, V94. -/
theorem test_fetch_faults :
    faultsWith (board 0 [0x00]) .invalidOpcode ∧ faultsWith (board 0 [0xFF]) .invalidOpcode ∧
      faultsWith (board 0 [0x02]) .invalidOpcode ∧ faultsWith (board 0x100 []) .outOfBounds := by decide

/-- V96: the image file. -/
theorem test_image_file :
    imageOfFile ["# load 8 into R0, then halt".toList, "10000010# LDI".toList, "00000000".toList,
      "   this line starts with a space and is skipped".toList, "00001000".toList, "".toList, "00000001# HLT".toList] =
      some [0x82, 0x00, 0x08, 0x01] := by decide

/-! Witnesses: for every statement with hypotheses, a state and operands that meet them, clause by clause. -/

/-- The hypotheses of `FetchRule s i`. -/
abbrev Fetchable (s : State) (i : Instr) : Prop :=
  s.st = .running ∧ s.cfg.Admissible ∧ i.wellFormed s.cfg = true ∧ opcodeAtPc s i

theorem witness_DecodingReadsBackEveryEncoding :
    tableConfig.Admissible ∧ Instr.wellFormed tableConfig (.cmp 255 8) = true ∧
      defaultConfig.Admissible ∧ Instr.wellFormed defaultConfig (.ldi 255 0) = true := by decide

theorem witness_DecodedBytesAreTheEncoding : decode defaultConfig [0x11, 0x82] = .ok (.ret, [0x82]) := by decide

theorem witness_LengthComesFromTheSelectedInstruction :
    decode tableConfig [0x01] = .ok (.hlt, []) ∧ decode tableConfig [0x50, 255] = .ok (.call 255, []) ∧
      decode tableConfig [0xA7, 0, 255] = .ok (.cmp 0 255, []) := by decide

theorem witness_DispatchComparesTheWholeByte :
    tableConfig.Admissible ∧ dispatch tableConfig 0x01 = some .hlt ∧
      dispatch { opc := { defaultOpcodeMap with hlt := 0xFF }, aluExt := false } 0xFF = some .hlt := by decide

theorem witness_DispatchComparesTheWholeByte_step : ∃ t, step (board 255 [0x01]) = .next t := ⟨_, rfl⟩

theorem witness_OptionalBytesAreInvalidInTheBaseMachine :
    Config.Admissible { defaultConfig with aluExt := true } ∧ Mnemonic.cmp ∈ optionalMnemonics := by decide

theorem witness_EveryOtherByteIsAnInvalidOpcode : defaultConfig.Admissible ∧ tableConfig.Admissible := by decide

theorem witness_StepRunsTheDecodedInstruction :
    (board 255 [0x11]).st = .running ∧
      decode (board 255 [0x11]).cfg (fetchBytes (board 255 [0x11])) = .ok (.ret, []) := by decide

theorem witness_OperandsAreFetchedBeforeExecution :
    Fetchable (board 255 [0x45]) (.push 9) ∧ 256 < 255 + (Instr.push 9).length ∧
      Fetchable (board 254 [0x45, 9]) (.push 9) ∧ ¬256 < 254 + (Instr.push 9).length ∧
      operandsAtPc (board 254 [0x45, 9]) (.push 9) := by decide

theorem witness_FetchAboveMemoryRaisesOutOfBounds :
    (board 256 []).st = .running ∧ 255 < (board 256 []).pc ∧ 255 < (board 258 []).pc := by decide

theorem witness_DispatchSelectsOrRaisesInvalidOpcode_selected :
    memRead (board 255 [0x01]) 255 = .ok 0x01 ∧ Fetchable (board 255 [0x01]) .hlt ∧
      operandsAtPc (board 255 [0x01]) .hlt := by decide

theorem witness_DispatchSelectsOrRaisesInvalidOpcode_none :
    memRead (board 255 [0xA0]) 255 = .ok 0xA0 ∧ (board 255 [0xA0]).st = .running ∧
      ∀ m ∈ dispatched (board 255 [0xA0]).cfg.aluExt, (board 255 [0xA0]).cfg.opc.byteOf m ≠ 0xA0 := by decide

theorem witness_StepExistsExactlyWhenRunning :
    (∃ t, step (board 255 [0xFF]) = .next t) ∧ (board 255 [0xFF]).st = .running ∧
      ((board 0 []).setStatus .halted).terminal := ⟨⟨_, rfl⟩, by decide, by decide⟩

theorem witness_StepExistsExactlyWhenRunning_terminal :
    Run ((board 0 []).setStatus (.faulted .outOfBounds)) ((board 0 []).setStatus (.faulted .outOfBounds)) ∧
      ((board 0 []).setStatus (.faulted .outOfBounds)).terminal := ⟨.refl _, by decide⟩

theorem witness_RunIsTheIteratedStep :
    ∃ t, Run (board 0 [0x65, 0x03]) t ∧ Host.Core.run Sys2Proof.core 1 (board 0 [0x65, 0x03]) = .next t :=
  ⟨_, .tail (.refl _) rfl, rfl⟩

/-! The hypotheses of each instruction's fetch clause at the two sides of the end of memory (an instruction of one byte has
no operand that could lie above it). -/

theorem witness_LdiLoadsTheImmediate_fetch :
    Fetchable (board 253 [0x82, 7, 255]) (.ldi 7 255) ∧ operandsAtPc (board 253 [0x82, 7, 255]) (.ldi 7 255) ∧
      Fetchable (board 254 [0x82, 7]) (.ldi 7 255) ∧ 256 < 254 + Instr.length (.ldi 7 255) := by decide

theorem witness_PrnEmitsTheRegister_fetch :
    Fetchable (board 254 [0x47, 7]) (.prn 7) ∧ operandsAtPc (board 254 [0x47, 7]) (.prn 7) ∧
      Fetchable (board 255 [0x47]) (.prn 7) ∧ 256 < 255 + Instr.length (.prn 7) := by decide

theorem witness_MulMultipliesModulo256_fetch :
    Fetchable (board 253 [0xA2, 7, 8]) (.mul 7 8) ∧ operandsAtPc (board 253 [0xA2, 7, 8]) (.mul 7 8) ∧
      Fetchable (board 254 [0xA2, 7]) (.mul 7 8) ∧ 256 < 254 + Instr.length (.mul 7 8) := by decide

theorem witness_IncAddsOneModulo256_fetch :
    Fetchable (board 254 [0x65, 8]) (.inc 8) ∧ operandsAtPc (board 254 [0x65, 8]) (.inc 8) ∧
      Fetchable (board 255 [0x65]) (.inc 8) ∧ 256 < 255 + Instr.length (.inc 8) := by decide

theorem witness_DecSubtractsOneModulo256_fetch :
    Fetchable (board 254 [0x66, 7]) (.dec 7) ∧ operandsAtPc (board 254 [0x66, 7]) (.dec 7) ∧
      Fetchable (board 255 [0x66]) (.dec 7) ∧ 256 < 255 + Instr.length (.dec 7) := by decide

theorem witness_AddAddsModulo256_fetch :
    Fetchable (extBoard 253 [0xA0, 7, 0]) (.add 7 0) ∧ operandsAtPc (extBoard 253 [0xA0, 7, 0]) (.add 7 0) ∧
      Fetchable (extBoard 254 [0xA0, 7]) (.add 7 0) ∧ 256 < 254 + Instr.length (.add 7 0) := by decide

theorem witness_SubSubtractsModulo256_fetch :
    Fetchable (extBoard 253 [0xA1, 0, 255]) (.sub 0 255) ∧ operandsAtPc (extBoard 253 [0xA1, 0, 255]) (.sub 0 255) ∧
      Fetchable (extBoard 254 [0xA1, 0]) (.sub 0 255) ∧ 256 < 254 + Instr.length (.sub 0 255) := by decide

theorem witness_CmpSetsExactlyOneFlag_fetch :
    Fetchable (extBoard 253 [0xA7, 7, 7]) (.cmp 7 7) ∧ operandsAtPc (extBoard 253 [0xA7, 7, 7]) (.cmp 7 7) ∧
      Fetchable (extBoard 254 [0xA7, 7]) (.cmp 7 7) ∧ 256 < 254 + Instr.length (.cmp 7 7) := by decide

theorem witness_PushStoresBelowTheStackPointer_fetch :
    Fetchable (board 254 [0x45, 7]) (.push 7) ∧ operandsAtPc (board 254 [0x45, 7]) (.push 7) ∧
      Fetchable (board 255 [0x45]) (.push 7) ∧ 256 < 255 + Instr.length (.push 7) := by decide

theorem witness_PopLoadsFromTheStackPointer_fetch :
    Fetchable (board 254 [0x46, 7]) (.pop 7) ∧ operandsAtPc (board 254 [0x46, 7]) (.pop 7) ∧
      Fetchable (board 255 [0x46]) (.pop 7) ∧ 256 < 255 + Instr.length (.pop 7) := by decide

theorem witness_HltStopsTheMachine_fetch :
    Fetchable (board 255 [0x01]) (.hlt) ∧ operandsAtPc (board 255 [0x01]) (.hlt) := by decide

theorem witness_CallPushesTheReturnAddressAndJumps_fetch :
    Fetchable (board 254 [0x50, 7]) (.call 7) ∧ operandsAtPc (board 254 [0x50, 7]) (.call 7) ∧
      Fetchable (board 255 [0x50]) (.call 7) ∧ 256 < 255 + Instr.length (.call 7) := by decide

theorem witness_RetPopsThePc_fetch :
    Fetchable (board 255 [0x11]) (.ret) ∧ operandsAtPc (board 255 [0x11]) (.ret) := by decide

/-! The clauses on the operands: a register index is in range up to 7 and out of range from 8. -/

/-- For the clauses of `LdiLoadsTheImmediate`, `PrnEmitsTheRegister`, `MulMultipliesModulo256`, `IncAddsOneModulo256`,
`DecSubtractsOneModulo256`, `AddAddsModulo256`, `SubSubtractsModulo256` and `CmpSetsExactlyOneFlag`. -/
theorem witness_register_clauses :
    (0 : Byte).toNat < 8 ∧ (7 : Byte).toNat < 8 ∧ 8 ≤ (8 : Byte).toNat ∧ 8 ≤ (255 : Byte).toNat := by decide

theorem witness_PushStoresBelowTheStackPointer_clauses :
    (7 : Byte).toNat < 8 ∧ (withReg 7 1 State.reset).regs[7].toNat ≠ 0 ∧ 8 ≤ (8 : Byte).toNat ∧
      (withReg 7 0 State.reset).regs[7].toNat = 0 := by decide

theorem witness_PopLoadsFromTheStackPointer_clauses :
    (6 : Byte).toNat < 8 ∧ (6 : Byte).toNat ≠ 7 ∧ (withReg 7 254 State.reset).regs[7].toNat ≠ 255 ∧
      (7 : Byte).toNat = 7 ∧ (State.reset.mem.read State.reset.regs[7].toNat).toNat ≠ 255 ∧
      8 ≤ (8 : Byte).toNat ∧ (6 : Byte).toNat < 7 ∧ (withReg 7 255 State.reset).regs[7].toNat = 255 ∧
      ((withCell 0xF4 255 State.reset).mem.read (withCell 0xF4 255 State.reset).regs[7].toNat).toNat = 255 := by decide

theorem witness_HltStopsTheMachine_step : ∃ t, step (board 255 [0x01]) = .next t ∧ t.st = .halted := ⟨_, rfl, rfl⟩

theorem witness_HltStopsTheMachine_exec : ∃ t, exec .hlt (board 258 []) = .next t := ⟨_, rfl⟩

theorem witness_CallPushesTheReturnAddressAndJumps_clauses :
    (7 : Byte).toNat < 8 ∧ (board 253 []).pc ≤ 253 ∧ (withReg 7 1 (board 253 [])).regs[7].toNat ≠ 0 ∧
      254 ≤ (board 254 []).pc ∧ (withReg 7 0 (board 0 [])).regs[7].toNat = 0 ∧ 8 ≤ (8 : Byte).toNat := by decide

theorem witness_RetPopsThePc_clauses :
    (withReg 7 254 State.reset).regs[7].toNat ≠ 255 ∧ (withReg 7 255 State.reset).regs[7].toNat = 255 := by decide

/-! The frames and tables. -/

theorem witness_OnlyTheTabledRegistersAreWritten :
    (∃ t, exec (.push 3) State.reset = .next t) ∧ 3 ∉ registersWritten (.push 3) ∧ 8 ∉ registersWritten (.push 3) :=
  ⟨⟨_, rfl⟩, by decide, by decide⟩

theorem witness_OnlyTheTabledRegistersAreRead :
    2 ∉ registersRead (.push 3) ∧ 2 ∉ registersRead (.ldi 2 9) ∧ 0 ∉ registersRead (.call 8) := by decide

theorem witness_PcFollowsItsTable_completes : ∃ t, (withReg 7 255 State.reset).st = .running ∧
    exec (.call 7) (withReg 7 255 State.reset) = .next t ∧ ¬∃ k, t.st = .faulted k :=
  ⟨_, rfl, rfl, fun ⟨_, h⟩ => nomatch h⟩

theorem witness_PcFollowsItsTable_faults : ∃ t, State.reset.st = .running ∧
    exec (.call 8) State.reset = .next t ∧ ∃ k, t.st = .faulted k := ⟨_, rfl, rfl, _, rfl⟩

theorem witness_OnlyTheStoredCellChanges :
    (∃ t, exec (.push 0) State.reset = .next t) ∧ storeAddress State.reset (.push 0) ≠ some 0xF2 ∧
      storeAddress State.reset (.push 0) ≠ some 0xF4 ∧ storeAddress State.reset (.push 0) ≠ some (-1) ∧
      storeAddress State.reset (.push 0) ≠ some 256 ∧ storeAddress State.reset .ret ≠ some 0xF3 :=
  ⟨⟨_, rfl⟩, by decide, by decide, by decide, by decide, by decide⟩

theorem witness_FlagsAreSetOnlyByCompareAndNeverRead_written :
    ∃ t, step (extBoard 253 [0xA7, 0, 7]) = .next t ∧ t.fl ≠ (extBoard 253 [0xA7, 0, 7]).fl := ⟨_, rfl, by decide⟩

theorem witness_FlagsAreSetOnlyByCompareAndNeverRead_run :
    ∃ t, (board 0 [0x65, 0x03]).cfg.aluExt = false ∧ Run (board 0 [0x65, 0x03]) t := ⟨_, rfl, .tail (.refl _) rfl⟩

theorem witness_OutputOnlyGrowsAndIsNeverRead :
    ∃ t, step (board 254 [0x47, 7]) = .next t ∧ t.out = State.reset.out ++ [0xF4] := ⟨_, rfl, rfl⟩

theorem witness_FaultChangesOnlyTheStatus :
    ∃ t, step (board 254 [0x50, 0]) = .next t ∧ t.st = .faulted .outOfBounds := ⟨_, rfl, rfl⟩

/-- Every cause of the tables, at the boundary values. -/
theorem witness_FaultsAreExactlyThoseOfTheTables_fetch :
    expectedFault (board 256 []) = some .outOfBounds ∧ expectedFault (board 255 [0x00]) = some .invalidOpcode ∧
      expectedFault (board 255 [0x45]) = some .outOfBounds ∧ expectedFault (board 254 [0x82, 9]) = some .outOfBounds ∧
      expectedFault (board 254 [0x45, 0]) = none ∧ expectedFault (board 253 [0x82, 7, 9]) = none := by decide

theorem witness_FaultsAreExactlyThoseOfTheTables_handlers :
    expectedFault (board 0 [0x47, 8]) = some .invalidRegister ∧ expectedFault (board 0 [0xA2, 7, 8]) = some .invalidRegister ∧
      expectedFault (withReg 7 0 (board 0 [0x45, 7])) = some .outOfBounds ∧
      expectedFault (withReg 7 255 (board 0 [0x46, 6])) = some .outOfBounds ∧
      expectedFault (withReg 7 255 (withCell 255 254 (board 0 [0x46, 7]))) = none ∧
      expectedFault (board 254 [0x50, 0]) = some .outOfBounds ∧ expectedFault (board 253 [0x50, 0]) = none ∧
      expectedFault (board 0 [0x50, 8]) = some .invalidRegister ∧
      expectedFault (withReg 7 255 (board 0 [0x11])) = some .outOfBounds ∧ expectedFault (board 255 [0x01]) = none := by decide

theorem witness_UnsupportedOperationIsNeverRaised : ∃ t, step (extBoard 0 [0xA7, 0, 8]) = .next t := ⟨_, rfl⟩

theorem witness_StepKeepsTheInvariant :
    (∃ t, step (board 253 [0x82, 0, 0]) = .next t) ∧ (board 253 [0x82, 0, 0]).Inv := ⟨⟨_, rfl⟩, by decide⟩

theorem witness_BootedRunsKeepTheInvariant :
    ∃ s t, ResetParams.wellFormed { defaultResetParams with image := [0x82, 0, 8, 1] } = true ∧
      boot { defaultResetParams with image := [0x82, 0, 8, 1] } = .ok s ∧ Run s t :=
  ⟨_, _, by decide, (boot_default _).trans rfl, .tail (.refl _) rfl⟩

/-! The sequences of two steps. -/

theorem witness_PushThenPopMovesTheValue :
    let s := withReg 7 1 (board 252 [0x45, 0, 0x46, 6])
    (0 : Byte).toNat ≠ 7 ∧ (6 : Byte).toNat ≠ 7 ∧ s.st = .running ∧ s.cfg.Admissible ∧ s.pc ≤ 252 ∧
      opcodeAtPc s (.push 0) ∧ operandsAtPc s (.push 0) ∧ memRead s (s.pc + 2 : Nat) = .ok s.cfg.opc.pop ∧
      memRead s (s.pc + 3 : Nat) = .ok 6 ∧ s.regs[7].toNat ≠ 0 ∧ s.regs[7].toNat - 1 ≠ s.pc + 2 ∧
      s.regs[7].toNat - 1 ≠ s.pc + 3 := by decide

theorem witness_CallToReturnResumesAfterTheCall :
    let s := withReg 1 255 (withCell 255 0x11 (board 253 [0x50, 1]))
    (1 : Byte).toNat < 8 ∧ (1 : Byte).toNat ≠ 7 ∧ s.st = .running ∧ s.cfg.Admissible ∧ s.pc ≤ 253 ∧
      opcodeAtPc s (.call 1) ∧ operandsAtPc s (.call 1) ∧ s.regs[7].toNat ≠ 0 ∧
      memRead s s.regs[1].toNat = .ok s.cfg.opc.ret ∧ s.regs[7].toNat - 1 ≠ s.regs[1].toNat := by decide

/-- V71. -/
theorem witness_PushedByteIsFetchedNext_hlt :
    let s := withReg 7 3 (withReg 0 1 (board 0 [0x45, 0, 0xFF]))
    (0 : Byte).toNat < 8 ∧ (0 : Byte).toNat ≠ 7 ∧ s.st = .running ∧ s.cfg.Admissible ∧ opcodeAtPc s (.push 0) ∧
      operandsAtPc s (.push 0) ∧ s.regs[7].toNat = s.pc + 3 ∧ dispatch s.cfg s.regs[0] = some .hlt := by decide

theorem witness_PushedByteIsFetchedNext_invalid :
    let s := withReg 7 255 (withReg 0 2 (board 252 [0x45, 0, 0x01]))
    s.st = .running ∧ s.cfg.Admissible ∧ opcodeAtPc s (.push 0) ∧ operandsAtPc s (.push 0) ∧
      s.regs[7].toNat = s.pc + 3 ∧ dispatch s.cfg s.regs[0] = none := by decide

/-! Registers, memory, the ALU, creation and the image. -/

theorem witness_RegisterAccessChecksTheWholeIndex : (7 : Nat) < 8 ∧ (8 : Nat) ≤ 8 ∧ (8 : Nat) ≤ 263 := by decide

theorem witness_MemoryAccessIsBoundsChecked :
    (0 : Int) ≤ 0 ∧ (0 : Int) ≤ 255 ∧ (255 : Int) ≤ 255 ∧ (-1 : Int) < 0 ∧ (255 : Int) < 256 := by decide

theorem witness_AluResultsAreReducedModulo256 : (7 : Byte).toNat < 8 ∧ (0 : Byte).toNat < 8 := by decide

theorem witness_AluTouchesFlagsOnlyInCompare :
    (∃ t, alu State.reset (.cmp 0 7) = .ok t) ∧ (∃ t, alu State.reset (.dec 7) = .ok t) ∧
      ∀ a b, AluCommand.dec 7 ≠ .cmp a b := ⟨⟨_, rfl⟩, ⟨_, rfl⟩, by simp⟩

theorem witness_ImageIsLoadedFromAddressZero :
    (List.replicate 256 (1 : Byte)).length ≤ 256 ∧ ([] : List Byte).length ≤ 256 :=
  ⟨List.length_replicate.le, by decide⟩

theorem witness_OversizeImageIsTheLoadersError : 256 < (List.replicate 257 (1 : Byte)).length :=
  List.length_replicate.symm ▸ (by decide : 256 < 257)

/-- A fill of its own in each cell; the image covers the cells below its length (20_memory.md R65). -/
theorem test_each_cell_holds_its_fill :
    let s := State.create { defaultResetParams with memFill := Vector.ofFn fun a => BitVec.ofNat 8 (a.val + 1) }
    memRead s 0 = .ok 1 ∧ memRead s 254 = .ok 255 ∧ memRead s 255 = .ok 0 := by decide +kernel

theorem witness_StatusCodesNumberTheFaults :
    State.reset.cfg.faultCodes.Admissible ∧
      (State.reset.setStatus (.faulted .unsupportedOperation)).st = .faulted .unsupportedOperation ∧
      FaultCodes.Admissible { invalidOpcode := 9, outOfBounds := 7, invalidRegister := 5, unsupportedOperation := 3 } := by
  decide

theorem witness_ImageFileLinesGiveTheBytes :
    significantLine " 1".toList = false ∧ significantLine [] = false ∧ '#' ∉ "10000010".toList := by decide

end Sys2Proof.Tests
end

/-! PROOFS. The register and memory operations of 00_scope.md R9 to R12. -/

namespace Sys2Proof.Machine

/-- A memory read after a memory write, the counterpart of `regRead_regWrite`. -/
theorem memRead_memWrite {s t : State} {a : Int} {v : Byte} (h : memWrite s a v = .ok t) (b : Int) :
    memRead t b = if b = a then .ok v else memRead s b := by
  obtain ⟨ha, rfl⟩ := memWrite_eq_ok.1 h
  obtain ⟨m, rfl⟩ := Int.eq_ofNat_of_zero_le ha.1
  by_cases hb : 0 ≤ b ∧ b < memSize
  · obtain ⟨n, rfl⟩ := Int.eq_ofNat_of_zero_le hb.1
    have hn : n < memSize := by omega
    rw [memRead_of_lt _ hn, memRead_of_lt _ hn, Memory.read_write, Int.toNat_natCast]
    simp only [Nat.cast_inj]
    split <;> rfl
  · have hba : b ≠ m := fun e => hb (e ▸ ha)
    rw [memRead_of_not hb, memRead_of_not hb, if_neg hba]

/-- Settles O42: below 8 by the law of a read after a write, from 8 on by the index check of both operations. -/
theorem registerAccessChecksTheWholeIndex : Obligations.RegisterAccessChecksTheWholeIndex := by
  intro s i v
  refine ⟨fun hi => ⟨regRead_of_lt s hi, ?_⟩, fun hi => ?_⟩
  · have hw := regWrite_of_lt s v hi
    refine ⟨_, hw, ?_, fun j hj => ?_, rfl⟩
    · rw [regRead_regWrite hw, if_pos rfl]
    · rw [regRead_regWrite hw, if_neg hj]
  · have hge : ¬i < numRegs := Nat.not_lt.2 hi
    exact ⟨regRead_of_ge s hge, regWrite_of_ge s v hge⟩

/-- Settles O43: at 0 to 255 by the law of a read after a write, elsewhere by the bounds check of both operations. -/
theorem memoryAccessIsBoundsChecked : Obligations.MemoryAccessIsBoundsChecked := by
  intro s a v
  refine ⟨fun h0 h255 => ?_, fun hout => ?_⟩
  · have ha : 0 ≤ a ∧ a < memSize := ⟨h0, Int.lt_add_one_of_le h255⟩
    have hw := (memWrite_eq_ok (s := s) (v := v)).2 ⟨ha, rfl⟩
    refine ⟨memRead_eq_ok.2 ⟨ha, rfl⟩, _, hw, ?_, fun b hb => ?_, rfl⟩
    · rw [memRead_memWrite hw, if_pos rfl]
    · rw [memRead_memWrite hw, if_neg hb]
  · have ha : ¬(0 ≤ a ∧ a < memSize) := by simp only [memSize]; omega
    exact ⟨memRead_of_not ha, memWrite_of_not v ha⟩

end Sys2Proof.Machine

/-! PROOFS. The flags (10_state.md R31), by way of the state updates that no instruction sees. -/

namespace Sys2Proof.Machine

/-- The update `g` is seen by no instruction but perhaps the comparison: it keeps what the operations read (registers, pc,
memory) and commutes with what they write. -/
structure Unseen (g : State → State) : Prop where
  regs_eq : ∀ s, (g s).regs = s.regs
  pc_eq : ∀ s, (g s).pc = s.pc
  mem_eq : ∀ s, (g s).mem = s.mem
  setRegs_comm : ∀ s r, (g s).setRegs r = g (s.setRegs r)
  setPc_comm : ∀ s v, (g s).setPc v = g (s.setPc v)
  setMem_comm : ∀ s m, (g s).setMem m = g (s.setMem m)
  setStatus_comm : ∀ s k, (g s).setStatus k = g (s.setStatus k)
  emit_comm : ∀ s v, emit (g s) v = g (emit s v)

/-- `g` commutes with the one write of the comparison: so it is unseen by that too. -/
abbrev CommutesWithFlags (g : State → State) : Prop :=
  ∀ s f, (g s).setFlags f = g (s.setFlags f)

/-- The outcome with its next state, if any, updated. -/
def mapNext (g : State → State) : Outcome → Outcome
  | .next t => .next (g t)
  | .fault r => .fault r
  | .refused r => .refused r

theorem unseen_setFlags (f : Flags) : Unseen (·.setFlags f) where
  regs_eq _ := rfl
  pc_eq _ := rfl
  mem_eq _ := rfl
  setRegs_comm _ _ := rfl
  setPc_comm _ _ := rfl
  setMem_comm _ _ := rfl
  setStatus_comm _ _ := rfl
  emit_comm _ _ := rfl

def State.setConfig (s : State) (c : Config) : State := { s with cfg := c }

@[simp] theorem State.setConfig_cfg (s : State) (c : Config) : (s.setConfig c).cfg = c := rfl

theorem unseen_setConfig (c : Config) : Unseen (·.setConfig c) where
  regs_eq _ := rfl
  pc_eq _ := rfl
  mem_eq _ := rfl
  setRegs_comm _ _ := rfl
  setPc_comm _ _ := rfl
  setMem_comm _ _ := rfl
  setStatus_comm _ _ := rfl
  emit_comm _ _ := rfl

/-! The shared operations read the same beside an unseen update, and it stays beside what they write. -/

section
variable {g : State → State} (hg : Unseen g)
include hg

theorem Unseen.advance_comm (s : State) (w : Nat) : advance (g s) w = g (advance s w) := by
  simp only [advance, hg.pc_eq, hg.setPc_comm]

theorem Unseen.complete_comm (s : State) (r : Except FaultKind State) :
    complete (g s) (g <$> r) = mapNext g (complete s r) := by
  cases r with
  | ok t => rfl
  | error k => exact congrArg Host.Outcome.next (hg.setStatus_comm s _)

theorem Unseen.readOperand_eq (s : State) (a : Byte) : readOperand (g s) a = readOperand s a := by
  simp only [readOperand, regRead, hg.regs_eq]

theorem Unseen.writeOperand_comm (s : State) (a v : Byte) : writeOperand (g s) a v = g <$> writeOperand s a v := by
  simp only [writeOperand, regWrite, hg.regs_eq, hg.setRegs_comm]
  split <;> rfl

theorem Unseen.memRead_eq (s : State) (a : Int) : memRead (g s) a = memRead s a := memRead_congr (hg.mem_eq s) a

theorem Unseen.memWrite_comm (s : State) (a : Int) (v : Byte) : memWrite (g s) a v = g <$> memWrite s a v := by
  cases a with
  | negSucc n => rfl
  | ofNat n =>
    simp only [memWrite, hg.mem_eq, hg.setMem_comm]
    split <;> rfl

theorem Unseen.stackPointer_eq (s : State) : stackPointer (g s) = stackPointer s := by
  simp only [stackPointer, hg.regs_eq]

theorem Unseen.setStackPointer_comm (s : State) (v : Byte) : setStackPointer (g s) v = g (setStackPointer s v) := by
  simp only [setStackPointer, hg.regs_eq, hg.setRegs_comm]

theorem Unseen.pushAddress_eq (s : State) : pushAddress (g s) = pushAddress s := by
  simp only [pushAddress, hg.stackPointer_eq]

theorem Unseen.popAddress_eq (s : State) : popAddress (g s) = popAddress s := by
  simp only [popAddress, hg.stackPointer_eq]

theorem Unseen.pushValue_comm (s : State) (v : Byte) : pushValue (g s) v = g <$> pushValue s v := by
  simp only [pushValue, hg.pushAddress_eq, hg.memWrite_comm, hg.setStackPointer_comm, bind_map_left, map_bind, map_pure]

theorem Unseen.spInc_comm (s : State) : spInc (g s) = g <$> spInc s := by
  simp only [spInc, hg.stackPointer_eq, hg.setStackPointer_comm]
  split <;> rfl

theorem Unseen.aluBinary_comm (op : Int → Int → Int) (s : State) (dst src : Byte) :
    aluBinary op (g s) dst src = g <$> aluBinary op s dst src := by
  simp only [aluBinary, hg.readOperand_eq, hg.writeOperand_comm, map_bind]

theorem Unseen.aluUnary_comm (op : Int → Int) (s : State) (dst : Byte) :
    aluUnary op (g s) dst = g <$> aluUnary op s dst := by
  simp only [aluUnary, hg.readOperand_eq, hg.writeOperand_comm, map_bind]

theorem Unseen.aluCompare_comm (hf : CommutesWithFlags g) (s : State) (a b : Byte) :
    aluCompare (g s) a b = g <$> aluCompare s a b := by
  simp only [aluCompare, hg.readOperand_eq, hf, map_bind, map_pure]

/-- The common end of an instruction: its effect `r`, then the pc advanced. -/
theorem Unseen.complete_advance (s : State) (r : Except FaultKind State) (w : Nat) :
    complete (g s) (do let t ← g <$> r; pure (advance t w)) =
      mapNext g (complete s (do let t ← r; pure (advance t w))) := by
  simp only [← hg.complete_comm, hg.advance_comm, bind_map_left, map_bind, map_pure]

/-- Executing beside an unseen update, which for the comparison must also commute with writing the flags. -/
theorem Unseen.exec_comm {i : Instr} (hf : i.mnemonic = .cmp → CommutesWithFlags g) (s : State) :
    exec i (g s) = mapNext g (exec i s) := by
  cases i with
  | ldi a v => simp only [exec, execLdi, hg.writeOperand_comm, hg.complete_advance]
  | prn a =>
    simp only [exec, execPrn, ← hg.complete_comm, hg.readOperand_eq, hg.emit_comm, hg.advance_comm, map_bind, map_pure]
  | mul a b => simp only [exec, execMul, alu, hg.aluBinary_comm, hg.complete_advance]
  | inc a => simp only [exec, execInc, alu, hg.aluUnary_comm, hg.complete_advance]
  | dec a => simp only [exec, execDec, alu, hg.aluUnary_comm, hg.complete_advance]
  | push a =>
    simp only [exec, execPush, ← hg.complete_comm, hg.readOperand_eq, hg.pushAddress_eq, hg.pushValue_comm,
      hg.advance_comm, bind_map_left, map_bind, map_pure]
  | pop a =>
    simp only [exec, execPop, ← hg.complete_comm, hg.popAddress_eq, hg.memRead_eq, hg.writeOperand_comm, hg.spInc_comm,
      hg.advance_comm, bind_map_left, map_bind, map_pure]
  | hlt => simp only [exec, execHlt, ← hg.complete_comm, hg.setStatus_comm, hg.advance_comm, map_pure]
  | call a =>
    simp only [exec, execCall, ← hg.complete_comm, hg.pc_eq]
    split
    · rfl
    · simp only [hg.pushValue_comm, hg.readOperand_eq, hg.setPc_comm, bind_map_left, map_bind, map_pure]
  | ret =>
    simp only [exec, execRet, ← hg.complete_comm, hg.popAddress_eq, hg.memRead_eq, hg.spInc_comm, hg.setPc_comm,
      bind_map_left, map_bind, map_pure]
  | add a b => simp only [exec, execAdd, alu, hg.aluBinary_comm, hg.complete_advance]
  | sub a b => simp only [exec, execSub, alu, hg.aluBinary_comm, hg.complete_advance]
  | cmp a b => simp only [exec, execCmp, alu, hg.aluCompare_comm (hf rfl), hg.complete_advance]

/-- What an unseen update would leave as it is before an instruction, it leaves as it is after it: so an instruction that
does not see a field does not change it either. -/
theorem Unseen.exec_fixed {i : Instr} (hf : i.mnemonic = .cmp → CommutesWithFlags g) {s t : State}
    (hs : g s = s) (h : exec i s = .next t) : g t = t := by
  have e := hg.exec_comm hf s
  rw [hs, h] at e
  exact (Host.Outcome.next.inj e).symm

end

/-- No step changes the parameters (10_state.md R20). -/
theorem step_cfg {s t : State} (h : step s = .next t) : t.cfg = s.cfg := by
  obtain ⟨_, ⟨i, _, he⟩ | ⟨k, _, rfl⟩⟩ := step_eq_next h
  · have hfix : t.setConfig s.cfg = t := (unseen_setConfig s.cfg).exec_fixed (fun _ _ _ => rfl) rfl he
    rw [← hfix, State.setConfig_cfg]
  · rfl

/-! The flags. -/

theorem exec_setFlags {i : Instr} (hi : i.mnemonic ≠ .cmp) {s t : State} (h : exec i s = .next t) (f : Flags) :
    exec i (s.setFlags f) = .next (t.setFlags f) := by
  rw [(unseen_setFlags f).exec_comm (fun e => absurd e hi) s, h, mapNext]

theorem exec_fl {i : Instr} (hi : i.mnemonic ≠ .cmp) {s t : State} (h : exec i s = .next t) : t.fl = s.fl := by
  have hfix : t.setFlags s.fl = t := (unseen_setFlags s.fl).exec_fixed (fun e => absurd e hi) rfl h
  rw [← hfix, State.setFlags_fl]

/-- The comparison overwrites the flags, so it reads none; where it faults the flags before it stay. -/
theorem execCmp_setFlags {a b : Byte} {s t : State} (h : execCmp a b s = .next t) (f : Flags) :
    ∃ g, execCmp a b (s.setFlags f) = .next (t.setFlags g) := by
  rcases complete_eq_next.1 h with ho | ⟨k, he, rfl⟩
  · exact ⟨t.fl, complete_eq_next.2 (.inl ho)⟩
  · exact ⟨f, complete_eq_next.2 (.inr ⟨k, he, rfl⟩)⟩

theorem fetch_setFlags (s : State) (f : Flags) : fetch (s.setFlags f) = fetch s := by
  rw [fetch_eq, fetch_eq]
  rfl

/-- A step keeps the flags, or its opcode byte dispatches to the comparison. -/
theorem step_fl {s t : State} (h : step s = .next t) :
    t.fl = s.fl ∨ s.cfg.aluExt = true ∧ dispatch s.cfg (s.mem.read s.pc) = some .cmp := by
  obtain ⟨_, ⟨i, hi, he⟩ | ⟨k, _, rfl⟩⟩ := step_eq_next h
  · obtain ⟨_, hmem, hdisp, _⟩ := fetch_eq_ok hi
    by_cases hc : i.mnemonic = .cmp
    · rw [hc] at hmem hdisp
      have onlyExt : ∀ b, Mnemonic.cmp ∈ dispatched b → b = true := by decide
      exact .inr ⟨onlyExt _ hmem, hdisp⟩
    · exact .inl (exec_fl hc he)
  · exact .inl rfl

/-- In the base machine a run keeps the flags; that it keeps `ALU_EXT` carries the induction. -/
theorem run_fl {s t : State} (hb : s.cfg.aluExt = false) (r : Run s t) : t.cfg = s.cfg ∧ t.fl = s.fl := by
  induction r with
  | refl => exact ⟨rfl, rfl⟩
  | tail _ h ih =>
    obtain ⟨hcfg, hfl⟩ := ih
    refine ⟨(step_cfg h).trans hcfg, ?_⟩
    rcases step_fl h with hk | ⟨hext, _⟩
    · exact hk.trans hfl
    · rw [hcfg, hb] at hext
      cases hext

theorem step_setFlags {s t : State} (h : step s = .next t) (f : Flags) :
    ∃ g, step (s.setFlags f) = .next (t.setFlags g) := by
  obtain ⟨hs, ⟨i, hi, he⟩ | ⟨k, hk, rfl⟩⟩ := step_eq_next h
  · rw [step_of_fetch_ok (s := s.setFlags f) hs ((fetch_setFlags s f).trans hi)]
    by_cases hc : i.mnemonic = .cmp
    · cases i with
      | cmp a b => exact execCmp_setFlags he f
      | _ => cases hc
    · exact ⟨f, exec_setFlags hc he f⟩
  · exact ⟨f, step_of_fetch_error (s := s.setFlags f) hs ((fetch_setFlags s f).trans hk)⟩

/-- Settles O31: all instructions but `CMP` commute with setting the flags, so they neither read nor write them; `CMP`
overwrites them. -/
theorem flagsAreSetOnlyByCompareAndNeverRead : Obligations.FlagsAreSetOnlyByCompareAndNeverRead :=
  ⟨fun _ _ h hne => (step_fl h).resolve_left hne, fun _ _ hb r => (run_fl hb r).2, fun _ _ f h => step_setFlags h f⟩

end Sys2Proof.Machine

/-! PROOFS. The image load of 20_memory.md R65. -/

namespace Sys2Proof.Machine

/-- What a booted machine is, for an image that fits: the created machine with the image laid over its fill. -/
theorem boot_of_le (p : ResetParams) (h : p.image.length ≤ memSize) :
    ∃ m, boot p = .ok { State.create p with mem := m } ∧
      ∀ a (ha : a < memSize), m.read a = if hi : a < p.image.length then p.image[a] else p.memFill[a] := by
  have hfit : loadOrigin + p.image.length ≤ memSize := (Nat.zero_add _).trans_le h
  obtain ⟨m, hboot, hread⟩ := loadFrom_of_le p.image loadOrigin (State.create p) hfit
  refine ⟨m, hboot, fun a ha => ?_⟩
  by_cases hi : a < p.image.length
  · have hcovered : loadOrigin ≤ a ∧ a - loadOrigin < p.image.length := ⟨Nat.zero_le a, hi⟩
    rw [hread a, dif_pos hcovered, dif_pos hi]
    rfl
  · rw [hread a, dif_neg fun hcovered => hi hcovered.2, dif_neg hi]
    exact Memory.read_filled p.memFill a ha

/-- Settles O47: each address below 256 is either one of the image or one that keeps its fill. -/
theorem imageIsLoadedFromAddressZero : Obligations.ImageIsLoadedFromAddressZero := by
  intro p hp
  obtain ⟨m, hboot, hread⟩ := boot_of_le p hp
  refine ⟨_, hboot, fun a h => ?_, fun a ha h => ?_, rfl⟩
  · have ha : a < memSize := h.trans_le hp
    rw [memRead_of_lt _ ha, hread a ha, dif_pos h]
  · rw [memRead_of_lt _ ha, hread a ha, dif_neg h.not_gt]

end Sys2Proof.Machine

/-! PROOFS. What decodes is its encoding, and the length of an instruction (30_encoding.md R85, R88). -/

namespace Sys2Proof

/-- Once the opcode byte has selected a mnemonic, decoding is taking its operands. -/
theorem decode_of_dispatch {c : Config} {op : Byte} {m : Mnemonic} (h : dispatch c op = some m) (bytes : List Byte) :
    decode c (op :: bytes) = (takeOperands m bytes).elim (.error (.missingOperand m)) .ok := by
  simp only [decode, h]
  cases takeOperands m bytes <;> rfl

/-- What decodes is the encoding of an instruction that the configuration dispatches. -/
theorem decode_eq_ok {c : Config} {bytes rest : List Byte} {i : Instr} (h : decode c bytes = .ok (i, rest)) :
    bytes = encode c.opc i ++ rest ∧ i.mnemonic ∈ dispatched c.aluExt := by
  cases bytes with
  | nil => cases h
  | cons op bs =>
    cases hm : dispatch c op with
    | none =>
      simp only [decode, hm] at h
      cases h
    | some m =>
      rw [decode_of_dispatch hm] at h
      cases ht : takeOperands m bs with
      | none =>
        rw [ht] at h
        cases h
      | some r =>
        rw [ht] at h
        cases h
        obtain ⟨hmem, hbyte⟩ := dispatch_eq_some hm
        obtain ⟨rfl, hbs⟩ := takeOperands_eq_some ht
        exact ⟨by rw [encode_eq, hbyte, hbs, List.cons_append], hmem⟩

theorem length_encode (o : OpcodeMap) (i : Instr) : (encode o i).length = i.length := by
  rw [encode_eq, List.length_cons, length_eq_operands]

/-- Settles O4: the bytes taken are the encoding, whose length is the one of the row of 30_encoding.md R84 and R93. -/
theorem lengthComesFromTheSelectedInstruction : Obligations.LengthComesFromTheSelectedInstruction := by
  intro c bytes rest i h
  obtain ⟨hbytes, _⟩ := decode_eq_ok h
  rw [hbytes, List.length_append, length_encode, Nat.add_comm]
  cases i <;> rfl

/-- Settles O5: dispatch under an injective `OPC`, decoding after dispatch, and no step changes the parameters. -/
theorem dispatchComparesTheWholeByte : Obligations.DispatchComparesTheWholeByte := by
  refine ⟨fun c op m hc => ⟨dispatch_eq_some, fun ⟨hm, hb⟩ => ?_⟩, fun c d op oq m bytes hop hoq => ?_,
    fun _ _ => Machine.step_cfg⟩
  · rw [← hb, dispatch_byteOf hc hm]
  · rw [decode_of_dispatch hop, decode_of_dispatch hoq]

end Sys2Proof

/-! PROOFS. The image file (30_encoding.md R95). -/

namespace Sys2Proof.Machine

theorem significantLine_iff {l : List Char} :
    significantLine l = true ↔ ∃ rest, l = '0' :: rest ∨ l = '1' :: rest := by
  cases l with
  | nil => simp [significantLine]
  | cons c cs => simp [significantLine, exists_or]

theorem imageOfFile_insert_of_not_significant {l : List Char} (h : significantLine l = false)
    (before after : List (List Char)) : imageOfFile (before ++ l :: after) = imageOfFile (before ++ after) := by
  simp only [imageOfFile, List.filter_append, List.filter_cons, h, Bool.false_eq_true, if_false]

theorem imageOfFile_cons {l : List Char} {b : Byte} (hs : significantLine l = true) (hb : lineByte l = some b)
    (ls : List (List Char)) : imageOfFile (l :: ls) = (imageOfFile ls).map (b :: ·) := by
  rw [imageOfFile, List.filter_cons_of_pos hs, List.mapM_cons, hb]
  exact (Option.map_eq_bind).symm

/-- A file of significant lines, each with its byte, gives those bytes. -/
theorem imageOfFile_map {α : Type} (line : α → List Char) (byte : α → Byte)
    (hs : ∀ x, significantLine (line x) = true) (hb : ∀ x, lineByte (line x) = some (byte x)) (xs : List α) :
    imageOfFile (xs.map line) = some (xs.map byte) := by
  induction xs with
  | nil => rfl
  | cons x xs ih => rw [List.map_cons, imageOfFile_cons (hs x) (hb x), ih, Option.map_some, List.map_cons]

theorem stripComment_append_comment {l : List Char} (h : '#' ∉ l) (comment : List Char) :
    stripComment (l ++ '#' :: comment) = l := by
  have hl : ∀ c ∈ l, (c != '#') = true := fun c hc => bne_iff_ne.2 fun e => h (e ▸ hc)
  rw [stripComment, List.takeWhile_append_of_pos hl, List.takeWhile_cons_of_neg (by decide), List.append_nil]

theorem stripComment_of_no_comment {l : List Char} (h : '#' ∉ l) : stripComment l = l :=
  List.takeWhile_eq_self_iff.2 fun _ hc => bne_iff_ne.2 fun e => h (e ▸ hc)

theorem lineByte_append_comment {l : List Char} (h : '#' ∉ l) (comment : List Char) :
    lineByte (l ++ '#' :: comment) = lineByte l := by
  simp only [lineByte, stripComment_append_comment h, stripComment_of_no_comment h]

/-- The `k` low bits of `x` as binary digits, the highest first: with `k = 8` the literal of a line (30_encoding.md
R95). -/
def binaryDigits (k x : Nat) : List Char :=
  (List.range k).map fun j => if x.testBit (k - 1 - j) then '1' else '0'

@[simp] theorem length_binaryDigits (k x : Nat) : (binaryDigits k x).length = k := by
  simp [binaryDigits]

theorem binaryDigits_succ (k x : Nat) :
    binaryDigits (k + 1) x = (if x.testBit k then '1' else '0') :: binaryDigits k x := by
  simp only [binaryDigits, List.range_succ_eq_map, List.map_cons, List.map_map, Nat.add_sub_cancel, Nat.sub_zero]
  congr 2
  funext j
  simp only [Function.comp_apply, Nat.sub_sub, Nat.add_comm]

theorem hash_notMem_binaryDigits (k x : Nat) : '#' ∉ binaryDigits k x := by
  induction k with
  | zero => exact List.not_mem_nil
  | succ k ih =>
    have hdigit : '#' ≠ if x.testBit k then '1' else '0' := by split <;> decide
    rw [binaryDigits_succ]
    exact List.not_mem_cons_of_ne_of_not_mem hdigit ih

theorem significantLine_binaryDigits (k x : Nat) (l : List Char) :
    significantLine (binaryDigits (k + 1) x ++ l) = true := by
  rw [binaryDigits_succ]
  cases x.testBit k <;> rfl

theorem binaryValue_digit (n : Nat) (b : Bool) (cs : List Char) :
    binaryValue n ((if b then '1' else '0') :: cs) = binaryValue (2 * n + b.toNat) cs := by
  cases b <;> rfl

/-- Reading digits back: what was read before moves up by `k` places. -/
theorem binaryValue_binaryDigits (k n x : Nat) : binaryValue n (binaryDigits k x) = some (n * 2 ^ k + x % 2 ^ k) := by
  induction k generalizing n with
  | zero => simp [binaryDigits, binaryValue, Nat.mod_one]
  | succ k ih =>
    have hvalue : (2 * n + (x.testBit k).toNat) * 2 ^ k + x % 2 ^ k = n * 2 ^ (k + 1) + x % 2 ^ (k + 1) := by
      rw [Nat.mod_pow_succ, Nat.toNat_testBit]
      ring
    rw [binaryDigits_succ, binaryValue_digit, ih, hvalue]

theorem lineByte_binaryDigits (b : Byte) : lineByte (binaryDigits 8 b.toNat) = some b := by
  have hvalue : binaryValue 0 (binaryDigits 8 b.toNat) = some b.toNat := by
    rw [binaryValue_binaryDigits, Nat.zero_mul, Nat.zero_add, Nat.mod_eq_of_lt b.isLt]
  rw [lineByte, stripComment_of_no_comment (hash_notMem_binaryDigits _ _), if_pos (length_binaryDigits _ _), hvalue,
    Option.map_some, BitVec.ofNat_toNat, BitVec.setWidth_eq]

/-- Settles O49: the literal of a byte reads back as that byte, whatever comment follows it, and a file of such lines
gives their bytes in order. -/
theorem imageFileLinesGiveTheBytes : Obligations.ImageFileLinesGiveTheBytes := by
  refine ⟨fun _ => significantLine_iff, fun before after _ h => imageOfFile_insert_of_not_significant h before after,
    fun _ comment h => lineByte_append_comment h comment, imageOfFile_map _ Prod.fst (fun p => ?_) fun p => ?_⟩
  · exact significantLine_binaryDigits 7 p.1.toNat ('#' :: p.2)
  · exact (lineByte_append_comment (hash_notMem_binaryDigits 8 p.1.toNat) p.2).trans (lineByte_binaryDigits p.1)

end Sys2Proof.Machine

/-! PROOFS. Where a step exists, and that a run stays in a terminal state (40_execution_cycle.md R116). -/

namespace Sys2Proof.Machine

theorem exists_complete_eq_next (s : State) (r : Except FaultKind State) : ∃ t, complete s r = .next t := by
  cases r with
  | ok t => exact ⟨t, complete_ok s t⟩
  | error k => exact ⟨_, raise_eq_next s k⟩

/-- Every instruction is one completion, of the effect or of the fault it raised. -/
theorem exec_eq_complete (i : Instr) (s : State) : ∃ r, exec i s = complete s r := by
  cases i with
  | hlt => exact ⟨.ok (advance (s.setStatus .halted) 1), rfl⟩
  | _ => exact ⟨_, rfl⟩

theorem exists_exec_eq_next (i : Instr) (s : State) : ∃ t, exec i s = .next t := by
  obtain ⟨r, hr⟩ := exec_eq_complete i s
  rw [hr]
  exact exists_complete_eq_next s r

theorem exists_step_eq_next {s : State} (hs : s.st = .running) : ∃ t, step s = .next t := by
  cases hf : fetch s with
  | ok i =>
    rw [step_of_fetch_ok hs hf]
    exact exists_exec_eq_next i s
  | error k => exact ⟨_, step_of_fetch_error hs hf⟩

theorem running_of_step_eq_next {s t : State} (h : step s = .next t) : s.st = .running :=
  (step_eq_next h).1

/-- By induction on the run: its last step would start in `s`, where none exists. -/
theorem run_of_terminal {s t : State} (hs : s.terminal) (r : Run s t) : t = s := by
  induction r with
  | refl => rfl
  | tail _ h ih =>
    subst ih
    exact absurd (running_of_step_eq_next h) hs

/-- Settles O12: an instruction or a failed fetch always gives a next state, and no step starts in a terminal state. -/
theorem stepExistsExactlyWhenRunning : Obligations.StepExistsExactlyWhenRunning :=
  ⟨fun _ => ⟨fun ⟨_, h⟩ => running_of_step_eq_next h, exists_step_eq_next⟩, fun _ _ => run_of_terminal⟩

end Sys2Proof.Machine

/-! PROOFS. The fetch clause of every instruction (40_execution_cycle.md R112, R113). -/

namespace Sys2Proof.Machine

/-- Once the opcode byte has selected a mnemonic, the fetch is the bounds check of its operands, then taking them. -/
theorem fetch_of_dispatch {s : State} {m : Mnemonic} (hpc : s.pc < memSize)
    (hd : dispatch s.cfg (s.mem.read s.pc) = some m) :
    fetch s = if 256 < s.pc + m.length then .error .outOfBounds
      else (takeOperands m [s.mem.read (s.pc + 1), s.mem.read (s.pc + 2)]).elim (.error .outOfBounds) (.ok ·.1) := by
  have hin : ¬255 < s.pc := Nat.not_lt.2 (Nat.le_of_lt_succ hpc)
  simp only [fetch_eq, if_neg hin, hd]
  cases takeOperands m [s.mem.read (s.pc + 1), s.mem.read (s.pc + 2)] <;> rfl

theorem dispatch_of_opcodeAtPc {s : State} {i : Instr} (hc : s.cfg.Admissible) (hw : i.wellFormed s.cfg = true)
    (hop : opcodeAtPc s i) : s.pc < memSize ∧ dispatch s.cfg (s.mem.read s.pc) = some i.mnemonic := by
  obtain ⟨⟨_, hlt⟩, hread⟩ := memRead_eq_ok.1 hop
  rw [Int.toNat_natCast] at hread
  exact ⟨Int.ofNat_lt.1 hlt, hread ▸ dispatch_byteOf hc (mem_dispatched_of_wellFormed hw)⟩

theorem length_operands_le (i : Instr) : i.operands.length ≤ 2 := by
  cases i <;> simp [Instr.operands]

/-- Operand bytes that stand behind the pc are the first of the two bytes there. -/
theorem operands_prefix_of_operandsAtPc {s : State} {i : Instr} (h : operandsAtPc s i) :
    i.operands <+: [s.mem.read (s.pc + 1), s.mem.read (s.pc + 2)] := by
  have hbytes : [s.mem.read (s.pc + 1), s.mem.read (s.pc + 2)] =
      (List.range 2).map fun k => s.mem.read (s.pc + 1 + k) := rfl
  rw [hbytes, List.prefix_iff_getElem]
  refine ⟨by simpa using length_operands_le i, fun k hk => ?_⟩
  obtain ⟨_, hread⟩ := memRead_eq_ok.1 (h k hk)
  rw [List.getElem_map, List.getElem_range, ← hread, Int.toNat_natCast]

/-- The fetch clause holds of every instruction: its opcode byte dispatches to it; its operands lie above memory or are
taken. -/
theorem fetchRule (s : State) (i : Instr) : FetchRule s i := by
  intro hs hc hw hop
  obtain ⟨hpc, hd⟩ := dispatch_of_opcodeAtPc hc hw hop
  have hfetch : fetch s = if 256 < s.pc + i.length then _ else _ := fetch_of_dispatch hpc hd
  split
  case isTrue hlen =>
    rw [if_pos hlen] at hfetch
    exact step_of_fetch_error hs hfetch
  case isFalse hlen =>
    intro hops
    obtain ⟨rest, hrest⟩ := operands_prefix_of_operandsAtPc hops
    rw [if_neg hlen, ← hrest, takeOperands_operands] at hfetch
    exact step_of_fetch_ok hs hfetch

end Sys2Proof.Machine

/-! PROOFS. `LDI` (41_load_and_print.md R130). -/

namespace Sys2Proof.Machine

theorem exec_ldi (a v : Byte) (s : State) : exec (.ldi a v) s = execLdi a v s := rfl

theorem execLdi_of_lt {a : Byte} (v : Byte) (s : State) (h : a.toNat < numRegs) :
    execLdi a v s = .next { s with regs := s.regs.set a.toNat v, pc := s.pc + 3 } := by
  rw [execLdi, writeOperand, regWrite_of_lt s v h]
  rfl

theorem execLdi_of_ge {a : Byte} (v : Byte) (s : State) (h : ¬a.toNat < numRegs) :
    execLdi a v s = raise s .invalidRegister := by
  rw [execLdi, writeOperand, regWrite_of_ge s v h, error_bind, complete_error]

/-- Settles O14: by the fetch clause of every instruction, and the register write within and outside the index check. -/
theorem ldiLoadsTheImmediate : Obligations.LdiLoadsTheImmediate := by
  intro s a v
  rw [exec_ldi]
  refine ⟨fetchRule s _, fun h => ?_, fun h => execLdi_of_ge v s (Nat.not_lt.2 h)⟩
  exact ⟨_, execLdi_of_lt v s h, rfl, regRead_eq_ok.2 ⟨h, Vector.getElem_set_self h⟩⟩

end Sys2Proof.Machine

/-! PROOFS. The ALU: the result of each of its operations (42_alu.md R141 to R145), and which of them touch the flags
(R148). -/

namespace Sys2Proof.Machine

section
variable (s : State) {d r : Byte} (hd : d.toNat < numRegs) (hr : r.toNat < numRegs)

theorem alu_add_of_lt : alu s (.add d r) = .ok { s with
    regs := s.regs.set d.toNat (BitVec.ofNat 8 ((s.regs[d.toNat].toNat + s.regs[r.toNat].toNat) % 256)) } := by
  rw [alu, aluBinary_of_lt _ s hd hr, ← Nat.cast_add, wrapByte_natCast]

theorem alu_sub_of_lt : alu s (.sub d r) = .ok { s with
    regs := s.regs.set d.toNat (BitVec.ofInt 8 (((s.regs[d.toNat].toNat : Int) - s.regs[r.toNat].toNat) % 256)) } := by
  rw [alu, aluBinary_of_lt _ s hd hr, wrapByte_emod]

theorem alu_mult_of_lt : alu s (.mult d r) = .ok { s with
    regs := s.regs.set d.toNat (BitVec.ofNat 8 (s.regs[d.toNat].toNat * s.regs[r.toNat].toNat % 256)) } := by
  rw [alu, aluBinary_of_lt _ s hd hr, ← Nat.cast_mul, wrapByte_natCast]

theorem alu_inc_of_lt : alu s (.inc d) = .ok { s with
    regs := s.regs.set d.toNat (BitVec.ofNat 8 ((s.regs[d.toNat].toNat + 1) % 256)) } := by
  rw [alu, aluUnary_of_lt _ s hd, ← Nat.cast_add_one, wrapByte_natCast]

theorem alu_dec_of_lt : alu s (.dec d) = .ok { s with
    regs := s.regs.set d.toNat (BitVec.ofInt 8 (((s.regs[d.toNat].toNat : Int) - 1) % 256)) } := by
  rw [alu, aluUnary_of_lt _ s hd, wrapByte_emod]

end

theorem alu_mult_of_ge (s : State) {d r : Byte} (h : ¬(d.toNat < numRegs ∧ r.toNat < numRegs)) :
    alu s (.mult d r) = .error .invalidRegister := by
  rw [alu, aluBinary_of_ge _ s h]

theorem alu_inc_of_ge (s : State) {d : Byte} (h : ¬d.toNat < numRegs) :
    alu s (.inc d) = .error .invalidRegister := by
  rw [alu, aluUnary_of_ge _ s h]

theorem alu_dec_of_ge (s : State) {d : Byte} (h : ¬d.toNat < numRegs) :
    alu s (.dec d) = .error .invalidRegister := by
  rw [alu, aluUnary_of_ge _ s h]

/-- Settles O44: the exact result of each operation, reduced once. -/
theorem aluResultsAreReducedModulo256 : Obligations.AluResultsAreReducedModulo256 :=
  fun s _ _ hd hr =>
    ⟨alu_add_of_lt s hd hr, alu_sub_of_lt s hd hr, alu_mult_of_lt s hd hr, alu_inc_of_lt s hd, alu_dec_of_lt s hd⟩

/-- Everything a comparison that completes does. -/
theorem aluCompare_eq_ok {s t : State} {a b : Byte} :
    aluCompare s a b = .ok t ↔ ∃ (ha : a.toNat < numRegs) (hb : b.toNat < numRegs),
      t = { s with fl := compareFlags s.regs[a.toNat] s.regs[b.toNat] } := by
  by_cases h : a.toNat < numRegs ∧ b.toNat < numRegs
  · obtain ⟨ha, hb⟩ := h
    simp only [aluCompare_of_lt s ha hb, Except.ok.injEq, ha, hb, exists_true_left, eq_comm]
  · rw [aluCompare_of_ge s h]
    exact ⟨(nomatch ·), fun ⟨ha, hb, _⟩ => absurd ⟨ha, hb⟩ h⟩

/-- An operation other than the comparison beside an unseen update. -/
theorem Unseen.alu_comm {g : State → State} (hg : Unseen g) {c : AluCommand} (hc : ∀ a b, c ≠ .cmp a b) (s : State) :
    alu (g s) c = g <$> alu s c := by
  cases c with
  | add d r => rw [alu, alu, hg.aluBinary_comm]
  | sub d r => rw [alu, alu, hg.aluBinary_comm]
  | mult d r => rw [alu, alu, hg.aluBinary_comm]
  | inc d => rw [alu, alu, hg.aluUnary_comm]
  | dec d => rw [alu, alu, hg.aluUnary_comm]
  | cmp a b => exact absurd rfl (hc a b)

theorem alu_setFlags {c : AluCommand} (hc : ∀ a b, c ≠ .cmp a b) {s t : State} (h : alu s c = .ok t) (f : Flags) :
    alu (s.setFlags f) c = .ok (t.setFlags f) := by
  rw [(unseen_setFlags f).alu_comm hc s, h]
  rfl

/-- Setting the flags to what they are leaves the state before the operation as it is, so also the one after it. -/
theorem alu_fl {c : AluCommand} (hc : ∀ a b, c ≠ .cmp a b) {s t : State} (h : alu s c = .ok t) : t.fl = s.fl := by
  have hset : Except.ok t = Except.ok (t.setFlags s.fl) := h.symm.trans (alu_setFlags hc h s.fl)
  rw [Except.ok.inj hset, State.setFlags_fl]

/-- Settles O45: the comparison writes the flags alone, and all other operations commute with setting them. -/
theorem aluTouchesFlagsOnlyInCompare : Obligations.AluTouchesFlagsOnlyInCompare := by
  intro s t c h
  refine ⟨alu_frame h, fun a b hcmp => ?_, fun hc => ⟨alu_fl hc h, alu_setFlags hc h⟩⟩
  subst hcmp
  obtain ⟨_, _, rfl⟩ := aluCompare_eq_ok.1 h
  rfl

end Sys2Proof.Machine

/-! PROOFS. `MUL`, `INC` and `DEC` (42_alu.md R150 to R152). -/

namespace Sys2Proof.Machine

/-! The common end of an instruction, its effect `r` and then the pc advanced, by what the effect answers. -/

theorem complete_advance_of_ok {r : Except FaultKind State} {t : State} (h : r = .ok t) (s : State) (w : Nat) :
    complete s (do let u ← r; pure (advance u w)) = .next { t with pc := t.pc + w } := by
  rw [h]
  rfl

theorem complete_advance_of_error {r : Except FaultKind State} {k : FaultKind} (h : r = .error k) (s : State) (w : Nat) :
    complete s (do let u ← r; pure (advance u w)) = raise s k := by
  rw [h, error_bind, complete_error]

theorem exec_mul (a b : Byte) (s : State) : exec (.mul a b) s = execMul a b s := rfl

theorem exec_inc (a : Byte) (s : State) : exec (.inc a) s = execInc a s := rfl

theorem exec_dec (a : Byte) (s : State) : exec (.dec a) s = execDec a s := rfl

/-- Settles O16: the fetch clause, then the end of the instruction by what the ALU answers. -/
theorem mulMultipliesModulo256 : Obligations.MulMultipliesModulo256 := by
  intro s a b
  rw [exec_mul]
  refine ⟨fetchRule s _, fun ha hb => complete_advance_of_ok (alu_mult_of_lt s ha hb) s 3, fun h => ?_⟩
  have hge : ¬(a.toNat < numRegs ∧ b.toNat < numRegs) := by simpa only [not_and_or, not_lt] using h
  exact complete_advance_of_error (alu_mult_of_ge s hge) s 3

/-- Settles O17: as for `MUL`, with the one register checked. -/
theorem incAddsOneModulo256 : Obligations.IncAddsOneModulo256 := by
  intro s a
  rw [exec_inc]
  refine ⟨fetchRule s _, fun h => complete_advance_of_ok (alu_inc_of_lt s h) s 2, fun h => ?_⟩
  exact complete_advance_of_error (alu_inc_of_ge s (Nat.not_lt.2 h)) s 2

/-- Settles O18: as for `INC`. -/
theorem decSubtractsOneModulo256 : Obligations.DecSubtractsOneModulo256 := by
  intro s a
  rw [exec_dec]
  refine ⟨fetchRule s _, fun h => complete_advance_of_ok (alu_dec_of_lt s h) s 2, fun h => ?_⟩
  exact complete_advance_of_error (alu_dec_of_ge s (Nat.not_lt.2 h)) s 2

end Sys2Proof.Machine

/-! PROOFS. `HLT` (44_control.md R180), and that no other instruction writes HALTED. -/

namespace Sys2Proof.Machine

/-- The effect `r` of an instruction begun in `s` leaves the run status as it is, if it completes. -/
def KeepsStatus (s : State) (r : Except FaultKind State) : Prop :=
  ∀ t, r = .ok t → t.st = s.st

theorem keepsStatus_ok {s t : State} (h : t.st = s.st) : KeepsStatus s (.ok t) := by
  rintro _ ⟨⟩
  exact h

theorem keepsStatus_error (s : State) (k : FaultKind) : KeepsStatus s (.error k) := nofun

/-- A read before the effect. -/
theorem KeepsStatus.read_bind {s : State} {α : Type} {x : Except FaultKind α} {f : α → Except FaultKind State}
    (hf : ∀ a, KeepsStatus s (f a)) : KeepsStatus s (x >>= f) := by
  intro t h
  obtain ⟨a, _, ha⟩ := bind_eq_ok.1 h
  exact hf a t ha

/-- One effect after another. -/
theorem KeepsStatus.bind {s : State} {r : Except FaultKind State} {f : State → Except FaultKind State}
    (hr : KeepsStatus s r) (hf : ∀ t, KeepsStatus t (f t)) : KeepsStatus s (r >>= f) := by
  intro u h
  obtain ⟨t, ht, hu⟩ := bind_eq_ok.1 h
  exact (hf t u hu).trans (hr t ht)

theorem keepsStatus_advance (s : State) (w : Nat) : KeepsStatus s (pure (advance s w)) := keepsStatus_ok rfl

theorem keepsStatus_setPc (s : State) (v : Nat) : KeepsStatus s (pure (s.setPc v)) := keepsStatus_ok rfl

theorem keepsStatus_writeOperand (s : State) (a v : Byte) : KeepsStatus s (writeOperand s a v) := by
  intro t h
  obtain ⟨_, rfl⟩ := regWrite_eq_ok.1 h
  rfl

theorem keepsStatus_pushValue (s : State) (v : Byte) : KeepsStatus s (pushValue s v) := by
  intro t h
  obtain ⟨_, rfl⟩ := pushValue_eq_ok.1 h
  rfl

theorem keepsStatus_spInc (s : State) : KeepsStatus s (spInc s) := by
  intro t h
  obtain ⟨_, rfl⟩ := spInc_eq_ok.1 h
  rfl

theorem keepsStatus_alu (s : State) (c : AluCommand) : KeepsStatus s (alu s c) := by
  intro t h
  rw [alu_frame h]

/-- The common end of an instruction: its effect `r`, then the pc advanced. -/
theorem KeepsStatus.bind_advance {s : State} {r : Except FaultKind State} (hr : KeepsStatus s r) (w : Nat) :
    KeepsStatus s (do let t ← r; pure (advance t w)) :=
  hr.bind fun t => keepsStatus_advance t w

/-- Every instruction but `HLT` is one completion, of an effect that keeps the run status. -/
theorem exec_eq_complete_keepsStatus {i : Instr} (hi : i ≠ .hlt) (s : State) :
    ∃ r, exec i s = complete s r ∧ KeepsStatus s r := by
  cases i with
  | ldi a v => exact ⟨_, rfl, (keepsStatus_writeOperand s a v).bind_advance 3⟩
  | prn a => exact ⟨_, rfl, .read_bind fun _ => keepsStatus_ok rfl⟩
  | mul a b => exact ⟨_, rfl, (keepsStatus_alu s _).bind_advance 3⟩
  | inc a => exact ⟨_, rfl, (keepsStatus_alu s _).bind_advance 2⟩
  | dec a => exact ⟨_, rfl, (keepsStatus_alu s _).bind_advance 2⟩
  | push a => exact ⟨_, rfl, .read_bind fun _ => (keepsStatus_pushValue s _).bind_advance 2⟩
  | pop a =>
    refine ⟨_, rfl, .read_bind fun v => (keepsStatus_writeOperand s a v).bind fun t => ?_⟩
    exact (keepsStatus_spInc t).bind_advance 2
  | hlt => exact absurd rfl hi
  | call a =>
    refine ⟨_, rfl, ?_⟩
    dsimp only
    split
    · exact keepsStatus_error s _
    · exact (keepsStatus_pushValue s _).bind fun t => .read_bind fun _ => keepsStatus_setPc t _
  | ret => exact ⟨_, rfl, .read_bind fun _ => (keepsStatus_spInc s).bind fun t => keepsStatus_setPc t _⟩
  | add a b => exact ⟨_, rfl, (keepsStatus_alu s _).bind_advance 3⟩
  | sub a b => exact ⟨_, rfl, (keepsStatus_alu s _).bind_advance 3⟩
  | cmp a b => exact ⟨_, rfl, (keepsStatus_alu s _).bind_advance 3⟩

/-- The run status after an instruction other than `HLT`: as before, or the fault raised. -/
theorem exec_st {i : Instr} (hi : i ≠ .hlt) {s t : State} (h : exec i s = .next t) :
    t.st = s.st ∨ ∃ k, t.st = .faulted k := by
  obtain ⟨r, hr, hkeep⟩ := exec_eq_complete_keepsStatus hi s
  rw [hr] at h
  rcases complete_eq_next.1 h with ht | ⟨k, _, rfl⟩
  · exact .inl (hkeep t ht)
  · exact .inr ⟨k, rfl⟩

theorem exec_hlt (s : State) : exec .hlt s = .next { s with st := .halted, pc := s.pc + 1 } := rfl

theorem fetch_of_step_halted {s t : State} (h : step s = .next t) (ht : t.st = .halted) :
    fetch s = .ok .hlt := by
  obtain ⟨hs, ⟨i, hi, he⟩ | ⟨k, _, rfl⟩⟩ := step_eq_next h
  · by_cases hhlt : i = .hlt
    · rw [hi, hhlt]
    · rcases exec_st hhlt he with hst | ⟨k, hst⟩
      · cases ht.symm.trans (hst.trans hs)
      · cases ht.symm.trans hst
  · cases ht

/-- Settles O24: `HLT` leaves RUNNING, where every step starts, and no other instruction and no fault ends HALTED. -/
theorem hltStopsTheMachine : Obligations.HltStopsTheMachine := by
  intro s
  refine ⟨fetchRule s _, exec_hlt s, fun t u ht hu => ?_, fun t h ht => ?_⟩
  · rw [exec_hlt] at ht
    cases ht
    cases running_of_step_eq_next hu
  · obtain ⟨hlen, _, hdisp, _⟩ := fetch_eq_ok (fetch_of_step_halted h ht)
    exact ⟨Nat.le_of_succ_le_succ hlen, hdisp⟩

end Sys2Proof.Machine

/-! PROOFS. Decoding and encoding, each the inverse of the other, and the bytes that select nothing (30_encoding.md
sections 1, 3 and 4). -/

namespace Sys2Proof

theorem wellFormed_iff {c : Config} {i : Instr} : i.wellFormed c = true ↔ i.mnemonic ∈ dispatched c.aluExt :=
  List.contains_iff_mem

theorem decode_encode {c : Config} {i : Instr} (hc : c.Admissible) (hi : i.mnemonic ∈ dispatched c.aluExt)
    (rest : List Byte) : decode c (encode c.opc i ++ rest) = .ok (i, rest) := by
  rw [encode_eq, List.cons_append, decode_of_dispatch (dispatch_byteOf hc hi), takeOperands_operands, Option.elim_some]

/-- Settles O1: the opcode byte dispatches to the mnemonic, and its operand bytes are taken in the order written. -/
theorem decodingReadsBackEveryEncoding : Obligations.DecodingReadsBackEveryEncoding :=
  fun _ _ rest hc hi => decode_encode hc (wellFormed_iff.1 hi) rest

/-- Settles O2: by what a decoding that succeeds has read. -/
theorem decodedBytesAreTheEncoding : Obligations.DecodedBytesAreTheEncoding := by
  intro c bytes rest i h
  obtain ⟨hbytes, hmem⟩ := decode_eq_ok h
  exact ⟨hbytes, wellFormed_iff.2 hmem⟩

/-- Settles O6: a base mnemonic of the same byte would be an optional one, by injectivity on all thirteen. -/
theorem optionalBytesAreInvalidInTheBaseMachine : Obligations.OptionalBytesAreInvalidInTheBaseMachine := by
  intro c hc m hm
  have hdisjoint : ∀ n ∈ baseMnemonics, n ∉ optionalMnemonics := by decide
  refine dispatch_eq_none.2 fun n hn hbyte => ?_
  have hnm : n = m := byteOf_injective hc (List.mem_append_left _ hn) (List.mem_append_right _ hm) hbyte
  exact hdisjoint n hn (hnm ▸ hm)

theorem dispatch_isSome_iff {c : Config} {op : Byte} :
    (dispatch c op).isSome ↔ op ∈ (dispatched c.aluExt).map c.opc.byteOf := by
  simp [dispatch]

/-- The numbers of the bytes that dispatch are, in another order, those of the bytes of the dispatched mnemonics. -/
theorem dispatching_perm {c : Config} (hc : c.Admissible) :
    ((List.range 256).filter fun n => (dispatch c (BitVec.ofNat 8 n)).isSome).Perm
      (((dispatched c.aluExt).map c.opc.byteOf).map BitVec.toNat) := by
  refine (List.perm_ext_iff_of_nodup (List.nodup_range.filter _) (hc.map BitVec.toNat_injective)).2 fun n => ?_
  rw [List.mem_filter, List.mem_range, dispatch_isSome_iff, List.mem_map (f := BitVec.toNat)]
  constructor
  · rintro ⟨hn, hbyte⟩
    exact ⟨_, hbyte, (BitVec.toNat_ofNat n 8).trans (Nat.mod_eq_of_lt hn)⟩
  · rintro ⟨op, hbyte, rfl⟩
    exact ⟨op.isLt, by rwa [BitVec.ofNat_toNat, BitVec.setWidth_eq]⟩

/-- Settles O7: as many bytes dispatch as there are dispatched mnemonics. -/
theorem everyOtherByteIsAnInvalidOpcode : Obligations.EveryOtherByteIsAnInvalidOpcode := by
  intro c hc
  have hcount : (dispatched c.aluExt).length = if c.aluExt then 13 else 10 := by cases c.aluExt <;> rfl
  have hall := List.length_eq_length_filter_add (l := List.range 256) fun n => (dispatch c (BitVec.ofNat 8 n)).isSome
  simp only [Option.not_isSome] at hall
  rw [(dispatching_perm hc).length_eq, List.length_range, List.length_map, List.length_map, hcount] at hall
  split at hall
  · next h => rw [if_pos h]; omega
  · next h => rw [if_neg h]; omega

/-- Settles O3: by running the decoder on each word. -/
theorem wordsOfTheTableDecode : Obligations.WordsOfTheTableDecode := by
  unfold Obligations.WordsOfTheTableDecode
  decide

end Sys2Proof

/-! PROOFS. An instruction begun in two states that agree off one register it does not read (10_state.md R24). -/

namespace Sys2Proof.Machine

/-- `t` is `s` but for register `j`. -/
structure AgreeOff (j : Nat) (s t : State) : Prop where
  frame : t = { s with regs := t.regs }
  regRead_eq : ∀ k, k ≠ j → regRead t k = regRead s k

/-- Two effects fault alike, or end in states that agree off register `j`. -/
inductive AlikeOff (j : Nat) : Except FaultKind State → Except FaultKind State → Prop
  | ok {s t : State} : AgreeOff j s t → AlikeOff j (.ok s) (.ok t)
  | error (k : FaultKind) : AlikeOff j (.error k) (.error k)

/-- Two outcomes are next states that agree off register `j`. -/
def NextsAgreeOff (j : Nat) (o p : Outcome) : Prop :=
  ∃ t u, o = .next t ∧ p = .next u ∧ AgreeOff j t u

variable {j : Nat}

/-- One effect after another. -/
theorem AlikeOff.bind {x y : Except FaultKind State} {f g : State → Except FaultKind State} (h : AlikeOff j x y)
    (hfg : ∀ s t, AgreeOff j s t → AlikeOff j (f s) (g t)) : AlikeOff j (x >>= f) (y >>= g) := by
  cases h with
  | ok hst => exact hfg _ _ hst
  | error k => exact .error k

/-- A read before the effect, the same on both sides. -/
theorem AlikeOff.read_bind {α : Type} {x y : Except FaultKind α} {f g : α → Except FaultKind State} (h : y = x)
    (hfg : ∀ a, AlikeOff j (f a) (g a)) : AlikeOff j (x >>= f) (y >>= g) := by
  subst h
  cases y with
  | ok a => exact hfg a
  | error k => exact .error k

theorem agreeOff_set (s : State) (hj : j < numRegs) (v : Byte) : AgreeOff j s { s with regs := s.regs.set j v } where
  frame := rfl
  regRead_eq k hk := by rw [regRead_regWrite (regWrite_of_lt s v hj), if_neg hk]

namespace AgreeOff

variable {s t : State} (h : AgreeOff j s t)
include h

theorem pc_eq : t.pc = s.pc := by rw [h.frame]

theorem mem_eq : t.mem = s.mem := by rw [h.frame]

theorem out_eq : t.out = s.out := by rw [h.frame]

/-- An update of the other fields that is made on both sides. -/
theorem map {f : State → State} (hf : ∀ s r, f { s with regs := r } = { f s with regs := r })
    (hr : ∀ s, (f s).regs = s.regs) : AgreeOff j (f s) (f t) where
  frame := by rw [hr, ← hf, ← h.frame]
  regRead_eq k hk := by simpa only [regRead, hr] using h.regRead_eq k hk

theorem setRegs {i : Nat} (hi : i < numRegs) (v : Byte) :
    AgreeOff j (s.setRegs (s.regs.set i v)) (t.setRegs (t.regs.set i v)) where
  frame := by rw [State.setRegs, h.frame]; rfl
  regRead_eq k hk := by
    refine (regRead_regWrite (regWrite_of_lt t v hi) k).trans ?_
    rw [h.regRead_eq k hk]
    exact (regRead_regWrite (regWrite_of_lt s v hi) k).symm

theorem advance (w : Nat) : AgreeOff j (advance s w) (advance t w) :=
  h.map (f := (Machine.advance · w)) (fun _ _ => rfl) fun _ => rfl

theorem setPc (v : Nat) : AgreeOff j (s.setPc v) (t.setPc v) :=
  h.map (f := (·.setPc v)) (fun _ _ => rfl) fun _ => rfl

theorem emit (v : Byte) : AgreeOff j (emit s v) (emit t v) :=
  h.map (f := (Machine.emit · v)) (fun _ _ => rfl) fun _ => rfl

theorem setStatus (k : Status) : AgreeOff j (s.setStatus k) (t.setStatus k) :=
  h.map (f := (·.setStatus k)) (fun _ _ => rfl) fun _ => rfl

theorem setFlags (f : Flags) : AgreeOff j (s.setFlags f) (t.setFlags f) :=
  h.map (f := (·.setFlags f)) (fun _ _ => rfl) fun _ => rfl

theorem readOperand_eq {a : Byte} (ha : j ≠ a.toNat) : readOperand t a = readOperand s a :=
  h.regRead_eq a.toNat ha.symm

theorem stackPointer_eq (h7 : j ≠ 7) : stackPointer t = stackPointer s :=
  Except.ok.inj (h.regRead_eq 7 h7.symm)

theorem writeOperand (a v : Byte) : AlikeOff j (writeOperand s a v) (writeOperand t a v) := by
  unfold Machine.writeOperand regWrite
  split
  · next ha => exact .ok (h.setRegs ha v)
  · exact .error _

theorem memRead_eq (a : Int) : memRead t a = memRead s a := memRead_congr h.mem_eq a

theorem pushAddress_eq (h7 : j ≠ 7) : pushAddress t = pushAddress s := by
  rw [pushAddress, h.stackPointer_eq h7, pushAddress]

theorem popAddress_eq (h7 : j ≠ 7) : popAddress t = popAddress s := by
  rw [popAddress, h.stackPointer_eq h7, popAddress]

theorem pushValue (h7 : j ≠ 7) (v : Byte) : AlikeOff j (pushValue s v) (pushValue t v) := by
  have hsp := h.stackPointer_eq h7
  by_cases h0 : (stackPointer s).toNat = 0
  · rw [pushValue_of_zero v h0, pushValue_of_zero v (by rw [hsp, h0])]
    exact .error _
  · rw [pushValue_of_ne v h0, pushValue_of_ne v (by rwa [hsp]), hsp, h.mem_eq]
    exact .ok ((h.setRegs (by decide) _).map (f := (·.setMem _)) (fun _ _ => rfl) fun _ => rfl)

theorem spInc (h7 : j ≠ 7) : AlikeOff j (spInc s) (spInc t) := by
  unfold Machine.spInc
  rw [h.stackPointer_eq h7]
  dsimp only
  split
  · exact .error _
  · exact .ok (h.setRegs (by decide) _)

theorem aluBinary (op : Int → Int → Int) {d r : Byte} (hd : j ≠ d.toNat) (hr : j ≠ r.toNat) :
    AlikeOff j (aluBinary op s d r) (aluBinary op t d r) :=
  .read_bind (h.readOperand_eq hd) fun _ => .read_bind (h.readOperand_eq hr) fun _ => h.writeOperand d _

theorem aluUnary (op : Int → Int) {d : Byte} (hd : j ≠ d.toNat) : AlikeOff j (aluUnary op s d) (aluUnary op t d) :=
  .read_bind (h.readOperand_eq hd) fun _ => h.writeOperand d _

theorem aluCompare {a b : Byte} (ha : j ≠ a.toNat) (hb : j ≠ b.toNat) :
    AlikeOff j (aluCompare s a b) (aluCompare t a b) :=
  .read_bind (h.readOperand_eq ha) fun _ => .read_bind (h.readOperand_eq hb) fun _ => .ok (h.setFlags _)

/-- A fault is raised in the states before the effects, which agree too. -/
theorem complete {x y : Except FaultKind State} (hxy : AlikeOff j x y) :
    NextsAgreeOff j (complete s x) (complete t y) := by
  cases hxy with
  | ok huv => exact ⟨_, _, rfl, rfl, huv⟩
  | error k => exact ⟨_, _, rfl, rfl, h.setStatus _⟩

/-- The common end of an instruction: its effects, then the pc advanced. -/
theorem complete_advance {x y : Except FaultKind State} (hxy : AlikeOff j x y) (w : Nat) :
    NextsAgreeOff j (Machine.complete s (do let u ← x; pure (Machine.advance u w)))
      (Machine.complete t (do let u ← y; pure (Machine.advance u w))) :=
  h.complete (hxy.bind fun _ _ huv => .ok (huv.advance w))

/-- Executing from two states that agree off a register the instruction does not read. -/
theorem exec {i : Instr} (hj : j ∉ registersRead i) : NextsAgreeOff j (exec i s) (exec i t) := by
  cases i <;> simp only [registersRead, List.mem_cons, List.not_mem_nil, or_false, not_or, not_false_eq_true] at hj
  case ldi a v => exact h.complete_advance (h.writeOperand a v) 3
  case prn a => exact h.complete (.read_bind (h.readOperand_eq hj) fun v => .ok ((h.emit v).advance 2))
  case mul a b => exact h.complete_advance (h.aluBinary (· * ·) hj.1 hj.2) 3
  case inc a => exact h.complete_advance (h.aluUnary (· + 1) hj) 2
  case dec a => exact h.complete_advance (h.aluUnary (· - 1) hj) 2
  case push a =>
    obtain ⟨h7, ha⟩ := hj
    refine h.complete (.read_bind (h.readOperand_eq ha) fun x => ?_)
    rw [h.pushAddress_eq h7]
    exact (h.pushValue h7 _).bind fun _ _ huv => .ok (huv.advance 2)
  case pop a =>
    have hread := (congrArg (memRead t) (h.popAddress_eq hj)).trans (h.memRead_eq _)
    refine h.complete (.read_bind hread fun v => (h.writeOperand a v).bind fun _ _ huv => ?_)
    exact (huv.spInc hj).bind fun _ _ hpq => .ok (hpq.advance 2)
  case hlt => exact h.complete (.ok ((h.setStatus _).advance 1))
  case call a =>
    obtain ⟨h7, ha⟩ := hj
    refine h.complete ?_
    rw [h.pc_eq]
    dsimp only
    split
    · exact .error _
    · refine (h.pushValue h7 _).bind fun _ _ huv => .read_bind (huv.readOperand_eq ha) fun v => .ok (huv.setPc _)
  case ret =>
    have hread := (congrArg (memRead t) (h.popAddress_eq hj)).trans (h.memRead_eq _)
    exact h.complete (.read_bind hread fun v => (h.spInc hj).bind fun _ _ huv => .ok (huv.setPc _))
  case add a b => exact h.complete_advance (h.aluBinary (· + ·) hj.1 hj.2) 3
  case sub a b => exact h.complete_advance (h.aluBinary (· - ·) hj.1 hj.2) 3
  case cmp a b => exact h.complete_advance (h.aluCompare hj.1 hj.2) 3

end AgreeOff

/-- Settles O28: both executions end in next states that agree off the register, as the states before them do. -/
theorem onlyTheTabledRegistersAreRead : Obligations.OnlyTheTabledRegistersAreRead := by
  intro i s j hj v hread
  obtain ⟨t, u, ht, hu, h⟩ := (agreeOff_set s hj v).exec hread
  refine ⟨t, u, ht, hu, ?_, ?_, ?_, ?_, ?_, ?_, h.regRead_eq⟩ <;> rw [h.frame]

end Sys2Proof.Machine

/-! PROOFS. The cycle: fetch, dispatch and execution (40_execution_cycle.md section 1), and the run as the iterated step
(section 2). -/

namespace Sys2Proof.Machine

/-- Settles O8: a decoding that succeeds is the fetch of its instruction. -/
theorem stepRunsTheDecodedInstruction : Obligations.StepRunsTheDecodedInstruction := by
  intro s i rest hs h
  have hfetch : fetch s = .ok i := by simp only [fetch, h]
  exact step_of_fetch_ok hs hfetch

/-- Settles O9: the fetch clause holds of every instruction. -/
theorem operandsAreFetchedBeforeExecution : Obligations.OperandsAreFetchedBeforeExecution := fetchRule

theorem fetch_of_pc_above {s : State} (h : 255 < s.pc) : fetch s = .error .outOfBounds := by
  rw [fetch_eq, if_pos h]

/-- Settles O10: the fetch of a pc above 255 fails, and the step raises its fault. -/
theorem fetchAboveMemoryRaisesOutOfBounds : Obligations.FetchAboveMemoryRaisesOutOfBounds :=
  fun _ hs h => step_of_fetch_error hs (fetch_of_pc_above h)

theorem fetch_of_dispatch_none {s : State} (hpc : s.pc < memSize) (hd : dispatch s.cfg (s.mem.read s.pc) = none) :
    fetch s = .error .invalidOpcode := by
  have hin : ¬255 < s.pc := Nat.not_lt.2 (Nat.le_of_lt_succ hpc)
  simp only [fetch_eq, if_neg hin, hd]

/-- Operand bytes that can be read lie inside memory, the last of them too. -/
theorem fits_of_operandsAtPc {s : State} {i : Instr} (hpc : s.pc < memSize) (h : operandsAtPc s i) :
    s.pc + i.length ≤ 256 := by
  rw [length_eq_operands]
  rcases Nat.eq_zero_or_pos i.operands.length with h0 | hpos
  · rw [h0]
    exact hpc
  · obtain ⟨⟨_, hlt⟩, _⟩ := memRead_eq_ok.1 (h (i.operands.length - 1) (Nat.sub_one_lt hpos.ne'))
    have hlast : s.pc + 1 + (i.operands.length - 1) < 256 := Int.ofNat_lt.1 hlt
    omega

/-- With all bytes of a dispatched instruction at the pc, a step executes it. -/
theorem step_eq_exec {s : State} {i : Instr} (hs : s.st = .running) (hc : s.cfg.Admissible)
    (hw : i.wellFormed s.cfg = true) (hop : opcodeAtPc s i) (hops : operandsAtPc s i) : step s = exec i s := by
  have hfit := fits_of_operandsAtPc (dispatch_of_opcodeAtPc hc hw hop).1 hops
  have hrule := fetchRule s i hs hc hw hop
  rw [if_neg (Nat.not_lt.2 hfit)] at hrule
  exact hrule hops

/-- Settles O11: by the fetch clause for a dispatched byte, by the failed fetch for any other. -/
theorem dispatchSelectsOrRaisesInvalidOpcode : Obligations.DispatchSelectsOrRaisesInvalidOpcode := by
  intro s op hs hop
  refine ⟨fun i hc hw hbyte hops => ?_, fun hnone => ⟨?_, fun u hu => ?_⟩⟩
  · have hopi : opcodeAtPc s i := hop.trans (congrArg _ hbyte.symm)
    exact step_eq_exec hs hc hw hopi hops
  · obtain ⟨⟨_, hlt⟩, hread⟩ := memRead_eq_ok.1 hop
    rw [Int.toNat_natCast] at hread
    have hd : dispatch s.cfg (s.mem.read s.pc) = none := hread ▸ dispatch_eq_none.2 hnone
    exact step_of_fetch_error hs (fetch_of_dispatch_none (Int.ofNat_lt.1 hlt) hd)
  · cases running_of_step_eq_next hu

/-- The iterated step extended at its end. -/
theorem run_succ_of_run {n : Nat} {s t u : State} (h : Sys2Proof.core.run n s = .next t) (hu : step t = .next u) :
    Sys2Proof.core.run (n + 1) s = .next u := by
  induction n generalizing s with
  | zero =>
    cases h
    exact (run_succ_of_next hu).trans rfl
  | succ n ih =>
    cases hs : step s with
    | next v => rw [run_succ_of_next hs] at h ⊢; exact ih h
    | fault r => rw [run_succ_of_fault hs] at h; cases h
    | refused r => rw [run_succ_of_refused hs] at h; cases h

theorem run_of_coreRun {n : Nat} {s t : State} (h : Sys2Proof.core.run n s = .next t) : Run s t := by
  induction n generalizing s with
  | zero =>
    cases h
    exact .refl _
  | succ n ih =>
    cases hs : step s with
    | next v => rw [run_succ_of_next hs] at h; exact (ih h).head hs
    | fault r => rw [run_succ_of_fault hs] at h; cases h
    | refused r => rw [run_succ_of_refused hs] at h; cases h

/-- Settles O13: one way by induction on the run, which grows at its end, the other by induction on the number of steps,
which are counted from the start. -/
theorem runIsTheIteratedStep : Obligations.RunIsTheIteratedStep := by
  intro s t
  refine ⟨fun r => ?_, fun ⟨_, h⟩ => run_of_coreRun h⟩
  induction r with
  | refl => exact ⟨0, rfl⟩
  | tail _ hl ih =>
    obtain ⟨n, hn⟩ := ih
    exact ⟨n + 1, run_succ_of_run hn hl⟩

end Sys2Proof.Machine

/-! PROOFS. `PRN` (41_load_and_print.md), and `ADD`, `SUB` and `CMP` (42_alu.md R153 to R155). -/

namespace Sys2Proof.Machine

theorem exec_prn (a : Byte) (s : State) : exec (.prn a) s = execPrn a s := rfl

theorem execPrn_of_lt {a : Byte} (s : State) (h : a.toNat < numRegs) :
    execPrn a s = .next { s with out := s.out ++ [s.regs[a.toNat]], pc := s.pc + 2 } := by
  rw [execPrn, readOperand, regRead_of_lt s h]
  rfl

theorem execPrn_of_ge {a : Byte} (s : State) (h : ¬a.toNat < numRegs) : execPrn a s = raise s .invalidRegister := by
  rw [execPrn, readOperand, regRead_of_ge s h, error_bind, complete_error]

/-- Settles O15: by the register read within and outside the index check. -/
theorem prnEmitsTheRegister : Obligations.PrnEmitsTheRegister := by
  intro s a
  rw [exec_prn]
  exact ⟨fetchRule s _, fun h => execPrn_of_lt s h, fun h => execPrn_of_ge s (Nat.not_lt.2 h)⟩

section
variable (s : State) {a b : Byte}

theorem alu_add_of_ge (h : ¬(a.toNat < numRegs ∧ b.toNat < numRegs)) : alu s (.add a b) = .error .invalidRegister := by
  rw [alu, aluBinary_of_ge _ s h]

theorem alu_sub_of_ge (h : ¬(a.toNat < numRegs ∧ b.toNat < numRegs)) : alu s (.sub a b) = .error .invalidRegister := by
  rw [alu, aluBinary_of_ge _ s h]

theorem alu_cmp_of_lt (ha : a.toNat < numRegs) (hb : b.toNat < numRegs) :
    alu s (.cmp a b) = .ok { s with fl := compareFlags s.regs[a.toNat] s.regs[b.toNat] } := by
  rw [alu, aluCompare_of_lt s ha hb]

theorem alu_cmp_of_ge (h : ¬(a.toNat < numRegs ∧ b.toNat < numRegs)) : alu s (.cmp a b) = .error .invalidRegister := by
  rw [alu, aluCompare_of_ge s h]

end

theorem exec_add (a b : Byte) (s : State) : exec (.add a b) s = execAdd a b s := rfl

theorem exec_sub (a b : Byte) (s : State) : exec (.sub a b) s = execSub a b s := rfl

theorem exec_cmp (a b : Byte) (s : State) : exec (.cmp a b) s = execCmp a b s := rfl

theorem not_both_lt {a b : Byte} (h : 8 ≤ a.toNat ∨ 8 ≤ b.toNat) : ¬(a.toNat < numRegs ∧ b.toNat < numRegs) := by
  simpa only [not_and_or, not_lt] using h

/-- Settles O19: as for `MUL`. -/
theorem addAddsModulo256 : Obligations.AddAddsModulo256 := by
  intro s a b
  rw [exec_add]
  refine ⟨fetchRule s _, fun ha hb => complete_advance_of_ok (alu_add_of_lt s ha hb) s 3, fun h => ?_⟩
  exact complete_advance_of_error (alu_add_of_ge s (not_both_lt h)) s 3

/-- Settles O20: as for `MUL`. -/
theorem subSubtractsModulo256 : Obligations.SubSubtractsModulo256 := by
  intro s a b
  rw [exec_sub]
  refine ⟨fetchRule s _, fun ha hb => complete_advance_of_ok (alu_sub_of_lt s ha hb) s 3, fun h => ?_⟩
  exact complete_advance_of_error (alu_sub_of_ge s (not_both_lt h)) s 3

theorem compareFlags_l {x y : Byte} : (compareFlags x y).l = true ↔ x.toNat < y.toNat := decide_eq_true_iff

theorem compareFlags_g {x y : Byte} : (compareFlags x y).g = true ↔ y.toNat < x.toNat := decide_eq_true_iff

theorem compareFlags_e {x y : Byte} : (compareFlags x y).e = true ↔ x = y :=
  decide_eq_true_iff.trans BitVec.toNat_inj

theorem compareFlags_some (x y : Byte) :
    ((compareFlags x y).l || (compareFlags x y).g || (compareFlags x y).e) = true := by
  simp only [Bool.or_eq_true, compareFlags, decide_eq_true_eq]
  omega

/-- Settles O21: the flags are those of the unsigned comparison, of which exactly one case holds. -/
theorem cmpSetsExactlyOneFlag : Obligations.CmpSetsExactlyOneFlag := by
  intro s a b
  rw [exec_cmp]
  refine ⟨fetchRule s _, fun ha hb => ?_, fun h => ?_⟩
  · refine ⟨_, complete_advance_of_ok (alu_cmp_of_lt s ha hb) s 3, compareFlags_l, compareFlags_g, compareFlags_e, ?_⟩
    exact ⟨compareFlags_some _ _, compareFlags_exclusive _ _⟩
  · exact complete_advance_of_error (alu_cmp_of_ge s (not_both_lt h)) s 3

end Sys2Proof.Machine

/-! PROOFS. `PUSH` and `POP` (43_stack.md), `CALL` and `RET` (44_control.md). -/

namespace Sys2Proof.Machine

theorem exec_push (a : Byte) (s : State) : exec (.push a) s = execPush a s := rfl

theorem exec_pop (a : Byte) (s : State) : exec (.pop a) s = execPop a s := rfl

theorem exec_call (a : Byte) (s : State) : exec (.call a) s = execCall a s := rfl

theorem exec_ret (s : State) : exec .ret s = execRet s := rfl

section
variable {a : Byte} (s : State)

theorem execPush_of_ge (h : ¬a.toNat < numRegs) : execPush a s = raise s .invalidRegister := by
  rw [execPush, readOperand, regRead_of_ge s h, error_bind, complete_error]

/-- With its register read, it pushes that register's byte, or the address it pushes to. -/
theorem execPush_of_lt (h : a.toNat < numRegs) : execPush a s = complete s (do
    let t ← pushValue s (if a.toNat = 7 then BitVec.ofInt 8 (pushAddress s) else s.regs[a.toNat])
    pure (advance t 2)) := by
  rw [execPush, readOperand, regRead_of_lt s h, ok_bind]

theorem execPush_of_zero (h : a.toNat < numRegs) (h0 : (stackPointer s).toNat = 0) :
    execPush a s = raise s .outOfBounds := by
  rw [execPush_of_lt s h, pushValue_of_zero _ h0, error_bind, complete_error]

theorem execPush_of_ne (h : a.toNat < numRegs) (h0 : (stackPointer s).toNat ≠ 0) :
    execPush a s = .next { s with
      regs := s.regs.set 7 (BitVec.ofNat 8 ((stackPointer s).toNat - 1))
      mem := s.mem.write ((stackPointer s).toNat - 1)
        (if a.toNat = 7 then BitVec.ofNat 8 ((stackPointer s).toNat - 1) else s.regs[a.toNat])
      pc := s.pc + 2 } := by
  rw [execPush_of_lt s h, ofInt_pushAddress h0, pushValue_of_ne _ h0]
  rfl

/-- The popped byte is read first, and cannot fault. -/
theorem execPop_eq : execPop a s = complete s (do
    let t ← writeOperand s a (s.mem.read (stackPointer s).toNat)
    let u ← spInc t
    pure (advance u 2)) := by
  rw [execPop, popRead, ok_bind]

theorem execPop_of_ge (h : ¬a.toNat < numRegs) : execPop a s = raise s .invalidRegister := by
  rw [execPop_eq, writeOperand, regWrite_of_ge _ _ h, error_bind, complete_error]

/-- What the stack pointer of a `POP` holds when it is incremented: the popped byte for `POP R7`. -/
theorem stackPointer_popped (h : a.toNat < numRegs) (v : Byte) :
    stackPointer { s with regs := s.regs.set a.toNat v } = if a.toNat = 7 then v else stackPointer s := by
  split
  · next h7 => simp only [h7, stackPointer_set_self]
  · next h7 => exact stackPointer_set_ne s h v h7

theorem execPop_of_max (h : a.toNat < numRegs)
    (hmax : (if a.toNat = 7 then s.mem.read (stackPointer s).toNat else stackPointer s).toNat = 255) :
    execPop a s = raise s .outOfBounds := by
  rw [← stackPointer_popped s h] at hmax
  rw [execPop_eq, writeOperand, regWrite_of_lt _ _ h, ok_bind, spInc_of_max hmax, error_bind, complete_error]

theorem execPop_of_ne (h : a.toNat < numRegs)
    (hne : (if a.toNat = 7 then s.mem.read (stackPointer s).toNat else stackPointer s).toNat ≠ 255) :
    execPop a s = .next { s with
      regs := (s.regs.set a.toNat (s.mem.read (stackPointer s).toNat)).set 7 (BitVec.ofNat 8
        ((if a.toNat = 7 then s.mem.read (stackPointer s).toNat else stackPointer s).toNat + 1))
      pc := s.pc + 2 } := by
  rw [← stackPointer_popped s h] at hne ⊢
  rw [execPop_eq, writeOperand, regWrite_of_lt _ _ h, ok_bind, spInc_of_ne hne]
  rfl

theorem execCall_of_pc_above (hpc : 253 < s.pc) : execCall a s = raise s .outOfBounds := by
  have hret : 255 < s.pc + 2 := Nat.add_lt_add_right hpc 2
  simp only [execCall, if_pos hret, complete_error]

/-- With a return address that is a byte, it is pushed first. -/
theorem execCall_of_le (hpc : s.pc ≤ 253) : execCall a s = complete s (do
    let t ← pushValue s (BitVec.ofNat 8 (s.pc + 2))
    let target ← readOperand t a
    pure (t.setPc target.toNat)) := by
  have hret : ¬255 < s.pc + 2 := by omega
  simp only [execCall, if_neg hret]

theorem execCall_of_zero (h0 : (stackPointer s).toNat = 0) : execCall a s = raise s .outOfBounds := by
  rcases Nat.lt_or_ge 253 s.pc with hpc | hpc
  · exact execCall_of_pc_above s hpc
  · rw [execCall_of_le s hpc, pushValue_of_zero _ h0, error_bind, complete_error]

theorem execCall_of_ge (h : ¬a.toNat < numRegs) (hpc : s.pc ≤ 253) (h0 : (stackPointer s).toNat ≠ 0) :
    execCall a s = raise s .invalidRegister := by
  rw [execCall_of_le s hpc, pushValue_of_ne _ h0, ok_bind, readOperand, regRead_of_ge _ h, error_bind, complete_error]

/-- The target is read after the push. -/
theorem execCall_of_ne (h : a.toNat < numRegs) (hpc : s.pc ≤ 253) (h0 : (stackPointer s).toNat ≠ 0) :
    execCall a s = .next { s with
      regs := s.regs.set 7 (BitVec.ofNat 8 ((stackPointer s).toNat - 1))
      mem := s.mem.write ((stackPointer s).toNat - 1) (BitVec.ofNat 8 (s.pc + 2))
      pc := (s.regs.set 7 (BitVec.ofNat 8 ((stackPointer s).toNat - 1)))[a.toNat].toNat } := by
  rw [execCall_of_le s hpc, pushValue_of_ne _ h0, ok_bind, readOperand, regRead_of_lt _ h]
  rfl

theorem execRet_of_max (hmax : (stackPointer s).toNat = 255) : execRet s = raise s .outOfBounds := by
  rw [execRet, popRead, ok_bind, spInc_of_max hmax, error_bind, complete_error]

theorem execRet_of_ne (hne : (stackPointer s).toNat ≠ 255) :
    execRet s = .next { s with
      regs := s.regs.set 7 (BitVec.ofNat 8 ((stackPointer s).toNat + 1))
      pc := (s.mem.read (stackPointer s).toNat).toNat } := by
  rw [execRet, popRead, ok_bind, spInc_of_ne hne]
  rfl

end

/-- Settles O22: the index check comes before the bound of the stack. -/
theorem pushStoresBelowTheStackPointer : Obligations.PushStoresBelowTheStackPointer := by
  intro s a
  rw [exec_push]
  exact ⟨fetchRule s _, fun h h0 => execPush_of_ne s h h0, fun h => execPush_of_ge s (Nat.not_lt.2 h),
    fun h h0 => execPush_of_zero s h h0⟩

/-- Settles O23: the bound is on register 7 as the write of the popped byte leaves it, which is the popped byte for
`POP R7`. -/
theorem popLoadsFromTheStackPointer : Obligations.PopLoadsFromTheStackPointer := by
  intro s a
  rw [exec_pop]
  refine ⟨fetchRule s _, fun h h7 hne => ?_, fun h7 hne => ?_, fun h => execPop_of_ge s (Nat.not_lt.2 h),
    fun h hmax => ?_, fun h7 hmax => ?_⟩
  · have hpop := execPop_of_ne s h
    rw [if_neg h7] at hpop
    exact hpop hne
  · have hpop := execPop_of_ne (a := a) s (by rw [h7]; decide)
    simp only [h7, if_true, Vector.set_set] at hpop
    exact hpop hne
  · have hpop := execPop_of_max s (h.trans (by decide))
    rw [if_neg h.ne] at hpop
    exact hpop hmax
  · have hpop := execPop_of_max (a := a) s (by rw [h7]; decide)
    rw [if_pos h7] at hpop
    exact hpop hmax

/-- The target of a `CALL`, read after the push: the decremented stack pointer for `CALL R7`. -/
theorem toNat_getElem_pushed (s : State) {i : Nat} (h : i < numRegs) :
    (s.regs.set 7 (BitVec.ofNat 8 ((stackPointer s).toNat - 1)))[i].toNat =
      if i = 7 then (stackPointer s).toNat - 1 else s.regs[i].toNat := by
  split
  · next h7 =>
    have hle := stackPointer_le s
    simp only [h7, Vector.getElem_set_self, BitVec.toNat_ofNat]
    omega
  · next h7 => rw [Vector.getElem_set_ne _ _ (Ne.symm h7)]

/-- Settles O25: the bounds come before the index check, which is made on reading the target after the push. -/
theorem callPushesTheReturnAddressAndJumps : Obligations.CallPushesTheReturnAddressAndJumps := by
  intro s a
  rw [exec_call]
  refine ⟨fetchRule s _, fun h hpc h0 => ?_, fun h => h.elim (execCall_of_pc_above s) (execCall_of_zero s),
    fun h hpc h0 => execCall_of_ge s (Nat.not_lt.2 h) hpc h0⟩
  have hcall := execCall_of_ne s h hpc h0
  rw [toNat_getElem_pushed s h] at hcall
  exact hcall

/-- Settles O26: the read of the popped byte cannot fault, so the increment decides. -/
theorem retPopsThePc : Obligations.RetPopsThePc := by
  intro s
  rw [exec_ret]
  exact ⟨fetchRule s _, execRet_of_ne s, execRet_of_max s⟩

end Sys2Proof.Machine

/-! PROOFS. What every instruction does: it raises the fault its tables name, or completes, by one lemma over all
instructions; the frames and tables of 10_state.md and 20_memory.md follow from it. -/

namespace Sys2Proof.Machine

/-- `t` is a state the instruction completes in, begun in `s`: which fields change, and how the pc does. The bytes
written are those of the instruction's own statement. -/
inductive Completes (s : State) : Instr → State → Prop
  | ldi {a v : Byte} (h : a.toNat < numRegs) :
    Completes s (.ldi a v) { s with regs := s.regs.set a.toNat v, pc := s.pc + 3 }
  | prn {a v : Byte} : Completes s (.prn a) { s with out := s.out ++ [v], pc := s.pc + 2 }
  | mul {a b v : Byte} (h : a.toNat < numRegs) :
    Completes s (.mul a b) { s with regs := s.regs.set a.toNat v, pc := s.pc + 3 }
  | inc {a v : Byte} (h : a.toNat < numRegs) :
    Completes s (.inc a) { s with regs := s.regs.set a.toNat v, pc := s.pc + 2 }
  | dec {a v : Byte} (h : a.toNat < numRegs) :
    Completes s (.dec a) { s with regs := s.regs.set a.toNat v, pc := s.pc + 2 }
  | push {a v sp : Byte} (h0 : (stackPointer s).toNat ≠ 0) :
    Completes s (.push a) { s with
      regs := s.regs.set 7 sp, mem := s.mem.write ((stackPointer s).toNat - 1) v, pc := s.pc + 2 }
  | pop {a v sp : Byte} (h : a.toNat < numRegs) :
    Completes s (.pop a) { s with regs := (s.regs.set a.toNat v).set 7 sp, pc := s.pc + 2 }
  | hlt : Completes s .hlt { s with st := .halted, pc := s.pc + 1 }
  | call {a v sp : Byte} (h0 : (stackPointer s).toNat ≠ 0) (h : a.toNat < numRegs) :
    Completes s (.call a) { s with
      regs := s.regs.set 7 sp, mem := s.mem.write ((stackPointer s).toNat - 1) v, pc := (s.regs.set 7 sp)[a.toNat].toNat }
  | ret {sp : Byte} :
    Completes s .ret { s with regs := s.regs.set 7 sp, pc := (s.mem.read (stackPointer s).toNat).toNat }
  | add {a b v : Byte} (h : a.toNat < numRegs) :
    Completes s (.add a b) { s with regs := s.regs.set a.toNat v, pc := s.pc + 3 }
  | sub {a b v : Byte} (h : a.toNat < numRegs) :
    Completes s (.sub a b) { s with regs := s.regs.set a.toNat v, pc := s.pc + 3 }
  | cmp {a b x y : Byte} : Completes s (.cmp a b) { s with fl := compareFlags x y, pc := s.pc + 3 }

/-- The fault of executing `i`: that of `handlerFault` for its own operand bytes, which for `CALL` is the table's only at
a pc from which the operand byte could be fetched. -/
def execFault (s : State) : Instr → Option FaultKind
  | .call a => if 253 < s.pc then some .outOfBounds else handlerFault s a 0 .call
  | i => handlerFault s (i.operands.getD 0 0) (i.operands.getD 1 0) i.mnemonic

/-- Executing `i` raises the fault, or completes where there is none. -/
def Meets (s : State) (i : Instr) : Option FaultKind → Prop
  | some k => exec i s = raise s k
  | none => ∃ t, exec i s = .next t ∧ Completes s i t

section
variable {s : State} {i : Instr}

theorem meets_none {t : State} (h : exec i s = .next t) (hc : Completes s i t) : Meets s i none := ⟨t, h, hc⟩

/-- One cause of a fault, and what is checked after it. -/
theorem meets_ite {p : Prop} [Decidable p] {k : FaultKind} {o : Option FaultKind} (hp : p → exec i s = raise s k)
    (hn : ¬p → Meets s i o) : Meets s i (if p then some k else o) := by
  split
  · next h => exact hp h
  · next h => exact hn h

/-- The check of one register index, and what is checked after it. -/
theorem meets_register {a : Byte} {o : Option FaultKind} (hge : ¬a.toNat < numRegs → exec i s = raise s .invalidRegister)
    (hlt : a.toNat < numRegs → Meets s i o) : Meets s i (if 7 < a.toNat then some .invalidRegister else o) :=
  meets_ite (fun h => hge (Nat.not_lt.2 h)) fun h => hlt (Nat.lt_succ_of_le (Nat.not_lt.1 h))

/-- The check of two register indices. -/
theorem meets_registers {a b : Byte}
    (hge : ¬(a.toNat < numRegs ∧ b.toNat < numRegs) → exec i s = raise s .invalidRegister)
    (hlt : a.toNat < numRegs → b.toNat < numRegs → Meets s i none) :
    Meets s i (if 7 < a.toNat ∨ 7 < b.toNat then some .invalidRegister else none) := by
  refine meets_ite (fun h => hge (not_both_lt h)) fun h => ?_
  obtain ⟨ha, hb⟩ := not_or.1 h
  exact hlt (Nat.lt_succ_of_le (Nat.not_lt.1 ha)) (Nat.lt_succ_of_le (Nat.not_lt.1 hb))

end

theorem exec_meets (i : Instr) (s : State) : Meets s i (execFault s i) := by
  cases i with
  | ldi a v => exact meets_register (execLdi_of_ge v s) fun h => meets_none (execLdi_of_lt v s h) (.ldi h)
  | prn a => exact meets_register (execPrn_of_ge s) fun h => meets_none (execPrn_of_lt s h) .prn
  | mul a b =>
    exact meets_registers (fun h => complete_advance_of_error (alu_mult_of_ge s h) s 3)
      fun ha hb => meets_none (complete_advance_of_ok (alu_mult_of_lt s ha hb) s 3) (.mul ha)
  | inc a =>
    exact meets_register (fun h => complete_advance_of_error (alu_inc_of_ge s h) s 2)
      fun h => meets_none (complete_advance_of_ok (alu_inc_of_lt s h) s 2) (.inc h)
  | dec a =>
    exact meets_register (fun h => complete_advance_of_error (alu_dec_of_ge s h) s 2)
      fun h => meets_none (complete_advance_of_ok (alu_dec_of_lt s h) s 2) (.dec h)
  | push a =>
    exact meets_register (execPush_of_ge s) fun h => meets_ite (execPush_of_zero s h)
      fun h0 => meets_none (execPush_of_ne s h h0) (.push h0)
  | pop a =>
    exact meets_register (execPop_of_ge s) fun h => meets_ite (execPop_of_max s h)
      fun hne => meets_none (execPop_of_ne s h hne) (.pop h)
  | hlt => exact meets_none (exec_hlt s) .hlt
  | call a =>
    refine meets_ite (execCall_of_pc_above s) fun hpc => ?_
    have hle : s.pc ≤ 253 := Nat.not_lt.1 hpc
    refine meets_ite (fun h => execCall_of_zero s (h.resolve_left (by omega))) fun h => ?_
    have h0 := (not_or.1 h).2
    exact meets_register (fun h => execCall_of_ge s h hle h0)
      fun h => meets_none (execCall_of_ne s h hle h0) (.call h0 h)
  | ret => exact meets_ite (execRet_of_max s) fun hne => meets_none (execRet_of_ne s hne) .ret
  | add a b =>
    exact meets_registers (fun h => complete_advance_of_error (alu_add_of_ge s h) s 3)
      fun ha hb => meets_none (complete_advance_of_ok (alu_add_of_lt s ha hb) s 3) (.add ha)
  | sub a b =>
    exact meets_registers (fun h => complete_advance_of_error (alu_sub_of_ge s h) s 3)
      fun ha hb => meets_none (complete_advance_of_ok (alu_sub_of_lt s ha hb) s 3) (.sub ha)
  | cmp a b =>
    exact meets_registers (fun h => complete_advance_of_error (alu_cmp_of_ge s h) s 3)
      fun ha hb => meets_none (complete_advance_of_ok (alu_cmp_of_lt s ha hb) s 3) .cmp

/-- Everything an instruction can do: raise a fault, changing nothing but `st`, or complete. -/
theorem exec_eq_next {i : Instr} {s t : State} (h : exec i s = .next t) :
    (∃ k, t = { s with st := .faulted k }) ∨ Completes s i t := by
  have hm := exec_meets i s
  cases hf : execFault s i with
  | some k =>
    rw [hf] at hm
    exact .inl ⟨k, Host.Outcome.next.inj (h.symm.trans hm)⟩
  | none =>
    rw [hf] at hm
    obtain ⟨u, hu, hc⟩ := hm
    cases h.symm.trans hu
    exact .inr hc

/-! The frames. -/

/-- A register other than the one set reads as before. -/
theorem regRead_of_set {s t : State} {i j : Nat} {v : Byte} (hi : i < numRegs) (h : t.regs = s.regs.set i v)
    (hj : j ≠ i) : regRead t j = regRead s j := by
  have hset : regRead t j = regRead { s with regs := s.regs.set i v } j := by rw [regRead, h, regRead]
  rw [hset, regRead_regWrite (regWrite_of_lt s v hi), if_neg hj]

theorem Completes.regRead_eq {s t : State} {i : Instr} (h : Completes s i t) {j : Nat} (hj : j ∉ registersWritten i) :
    regRead t j = regRead s j := by
  cases h with
  | ldi ha | mul ha | inc ha | dec ha | add ha | sub ha => exact regRead_of_set ha rfl (List.ne_of_not_mem_cons hj)
  | prn | hlt | cmp => rfl
  | push | call | ret => exact regRead_of_set (by decide) rfl (List.ne_of_not_mem_cons hj)
  | @pop a v sp ha =>
    have h7 : j ≠ 7 := List.ne_of_not_mem_cons (List.not_mem_of_not_mem_cons hj)
    exact Eq.trans (regRead_of_set (s := { s with regs := s.regs.set a.toNat v }) (by decide) rfl h7)
      (regRead_of_set ha rfl (List.ne_of_not_mem_cons hj))

/-- Settles O27: a fault changes no register, and what completes sets those of its row. -/
theorem onlyTheTabledRegistersAreWritten : Obligations.OnlyTheTabledRegistersAreWritten := by
  intro i s t h j hj
  rcases exec_eq_next h with ⟨k, rfl⟩ | hc
  · rfl
  · exact hc.regRead_eq hj

/-- An address other than that of the cell written reads as before. -/
theorem memRead_of_write {s t : State} {n : Nat} {v : Byte} (hn : n < memSize) (h : t.mem = s.mem.write n v) {a : Int}
    (ha : a ≠ n) : memRead t a = memRead s a := by
  have hset : memRead t a = memRead { s with mem := s.mem.write n v } a := memRead_congr h a
  rw [hset, memRead_memWrite (memWrite_of_lt s v hn), if_neg ha]

theorem pushCell_lt (s : State) : (stackPointer s).toNat - 1 < memSize :=
  (Nat.sub_le _ 1).trans_lt (stackPointer s).isLt

theorem pushAddress_eq_cast {s : State} (h0 : (stackPointer s).toNat ≠ 0) :
    pushAddress s = ((stackPointer s).toNat - 1 : Nat) := by
  rw [pushAddress, Nat.cast_pred (Nat.pos_of_ne_zero h0)]

theorem Completes.memRead_eq {s t : State} {i : Instr} (h : Completes s i t) {a : Int}
    (ha : storeAddress s i ≠ some a) : memRead t a = memRead s a := by
  cases h with
  | push h0 | call h0 =>
    refine memRead_of_write (pushCell_lt s) rfl fun e => ha ?_
    rw [e, ← pushAddress_eq_cast h0, storeAddress]
  | _ => exact memRead_congr rfl a

/-- Settles O30: only `PUSH` and `CALL` write a cell, the one below the stack pointer. -/
theorem onlyTheStoredCellChanges : Obligations.OnlyTheStoredCellChanges := by
  intro i s t h a ha
  rcases exec_eq_next h with ⟨k, rfl⟩ | hc
  · exact memRead_congr rfl a
  · exact hc.memRead_eq ha

theorem Completes.st_eq {s t : State} {i : Instr} (h : Completes s i t) : t.st = s.st ∨ t.st = .halted := by
  cases h with
  | hlt => exact .inr rfl
  | _ => exact .inl rfl

theorem Completes.not_faulted {s t : State} {i : Instr} (h : Completes s i t) (hs : s.st = .running) (k : FaultKind) :
    t.st ≠ .faulted k := by
  rcases h.st_eq with ht | ht
  · rw [ht, hs]; nofun
  · rw [ht]; nofun

theorem Completes.pcFollowsTable {s t : State} {i : Instr} (h : Completes s i t) : pcFollowsTable s t i := by
  cases h with
  | call h0 ha => exact ⟨_, regRead_of_lt _ ha, rfl⟩
  | ret => exact ⟨_, popRead s, rfl⟩
  | _ => rfl

/-- Settles O29: a state that is not FAULTED is one the instruction completes in. -/
theorem pcFollowsItsTable : Obligations.PcFollowsItsTable := by
  intro i s t hs h
  rcases exec_eq_next h with ⟨k, rfl⟩ | hc
  · exact ⟨fun _ => rfl, fun hn => absurd ⟨k, rfl⟩ hn⟩
  · exact ⟨fun ⟨k, hk⟩ => absurd hk (hc.not_faulted hs k), fun _ => hc.pcFollowsTable⟩

/-! The step. -/

/-- Everything a step can do: raise a fault, changing nothing but `st`, or complete the fetched instruction. -/
theorem step_eq_next_completes {s t : State} (h : step s = .next t) :
    (∃ k, t = { s with st := .faulted k }) ∨ ∃ i, fetch s = .ok i ∧ Completes s i t := by
  obtain ⟨_, ⟨i, hi, he⟩ | ⟨k, _, rfl⟩⟩ := step_eq_next h
  · exact (exec_eq_next he).imp_right fun hc => ⟨i, hi, hc⟩
  · exact .inl ⟨k, rfl⟩

/-- Settles O33: a step that completes its instruction does not end FAULTED. -/
theorem faultChangesOnlyTheStatus : Obligations.FaultChangesOnlyTheStatus := by
  intro s t k h ht
  rcases step_eq_next_completes h with ⟨l, rfl⟩ | ⟨i, _, hc⟩
  · cases ht
    rfl
  · exact absurd ht (hc.not_faulted (running_of_step_eq_next h) k)

end Sys2Proof.Machine

/-! PROOFS. The faults of a step are those of the tables (60_exceptions.md sections 1 and 3). -/

namespace Sys2Proof.Machine

theorem length_le_three (m : Mnemonic) : m.length ≤ 3 := by
  cases m <;> decide

theorem expectedFault_of_fetch_error {s : State} {k : FaultKind} (h : fetch s = .error k) :
    expectedFault s = some k := by
  by_cases hpc : 255 < s.pc
  · rw [fetch_of_pc_above hpc] at h
    cases h
    exact if_pos hpc
  have hin : s.pc < memSize := Nat.lt_succ_of_le (Nat.not_lt.1 hpc)
  cases hd : dispatch s.cfg (s.mem.read s.pc) with
  | none =>
    rw [fetch_of_dispatch_none hin hd] at h
    cases h
    simp only [expectedFault, if_neg hpc, hd]
  | some m =>
    rw [fetch_of_dispatch hin hd] at h
    by_cases hlen : 256 < s.pc + m.length
    · rw [if_pos hlen] at h
      cases h
      simp only [expectedFault, if_neg hpc, hd, if_pos hlen]
    · cases ht : takeOperands m [s.mem.read (s.pc + 1), s.mem.read (s.pc + 2)] with
      | none => exact absurd ((takeOperands_eq_none m _).1 ht) (Nat.not_lt.2 (length_le_three m))
      | some r =>
        rw [if_neg hlen, ht] at h
        cases h

/-- Where the operand bytes could be fetched, the fault of executing `i` is that of the tables for the bytes fetched. -/
theorem handlerFault_eq_execFault {s : State} {i : Instr} {x y : Byte} {rest : List Byte}
    (hfit : s.pc + i.length ≤ 256) (h : [x, y] = i.operands ++ rest) :
    handlerFault s x y i.mnemonic = execFault s i := by
  cases i with
  | hlt | ret => rfl
  | call a =>
    cases h
    have hpc : s.pc = 254 ↔ 253 < s.pc := by
      have hle : s.pc ≤ 254 := Nat.le_of_add_le_add_right hfit
      omega
    by_cases hp : 253 < s.pc
    · rw [execFault, if_pos hp]
      exact if_pos (.inl (hpc.2 hp))
    · rw [execFault, if_neg hp]
      rfl
  | _ =>
    cases h
    rfl

theorem expectedFault_of_fetch_ok {s : State} {i : Instr} (h : fetch s = .ok i) : expectedFault s = execFault s i := by
  obtain ⟨hfit, _, hd, rest, hops⟩ := fetch_eq_ok h
  have hpc : ¬255 < s.pc := by
    have := length_eq_operands i
    omega
  have hlen : ¬256 < s.pc + i.mnemonic.length := Nat.not_lt.2 hfit
  simp only [expectedFault, if_neg hpc, hd, if_neg hlen]
  exact handlerFault_eq_execFault hfit hops

/-- Settles O34: a failed fetch raises the fault the tables name for it, and a fetched instruction meets its own. -/
theorem faultsAreExactlyThoseOfTheTables : Obligations.FaultsAreExactlyThoseOfTheTables := by
  intro s hs
  cases hf : fetch s with
  | error k =>
    rw [expectedFault_of_fetch_error hf]
    exact step_of_fetch_error hs hf
  | ok i =>
    have hm := exec_meets i s
    rw [expectedFault_of_fetch_ok hf, step_of_fetch_ok hs hf]
    cases he : execFault s i with
    | some k =>
      rw [he] at hm
      exact hm
    | none =>
      rw [he] at hm
      obtain ⟨t, ht, hc⟩ := hm
      exact ⟨t, ht, hc.st_eq.imp_left fun h => h.trans hs⟩

theorem handlerFault_ne_unsupportedOperation (s : State) (a b : Byte) (m : Mnemonic) :
    handlerFault s a b m ≠ some .unsupportedOperation := by
  cases m with
  | hlt => nofun
  | _ =>
    simp only [handlerFault]
    split_ifs <;> nofun

theorem expectedFault_ne_unsupportedOperation (s : State) : expectedFault s ≠ some .unsupportedOperation := by
  unfold expectedFault
  split
  · nofun
  · split
    · nofun
    · split
      · nofun
      · exact handlerFault_ne_unsupportedOperation s _ _ _

/-- Settles O35: the fault of a step is one the tables name, and they do not name this one. -/
theorem unsupportedOperationIsNeverRaised : Obligations.UnsupportedOperationIsNeverRaised := by
  intro s t h ht
  have hfaults := faultsAreExactlyThoseOfTheTables s (running_of_step_eq_next h)
  cases he : expectedFault s with
  | some k =>
    simp only [he] at hfaults
    cases h.symm.trans hfaults
    cases ht
    exact expectedFault_ne_unsupportedOperation s he
  | none =>
    simp only [he] at hfaults
    obtain ⟨u, hu, hst⟩ := hfaults
    cases h.symm.trans hu
    rw [ht] at hst
    rcases hst with hst | hst <;> cases hst

end Sys2Proof.Machine

/-! PROOFS. The invariant: every step keeps it, creation and loading establish it (10_state.md sections 3 and 4,
70_reset_and_hazards.md section 1). -/

namespace Sys2Proof.Machine

section
variable {s t : State} {i : Instr} (h : Completes s i t)
include h

theorem Completes.mem_wf (hwf : s.mem.wf) : t.mem.wf := by
  cases h with
  | push | call => exact Memory.wf_write _ hwf (pushCell_lt s)
  | _ => exact hwf

/-- A fetched instruction ends at most at the end of memory, and a jump goes to a byte. -/
theorem Completes.pc_le (hfit : s.pc + i.length ≤ 256) : t.pc ≤ 258 := by
  cases h with
  | call | ret => exact (BitVec.isLt _).le.trans (by decide)
  | _ => exact hfit.trans (by decide)

theorem Completes.fl_exclusive (hfl : s.fl.Exclusive) : t.fl.Exclusive := by
  cases h with
  | cmp => exact compareFlags_exclusive _ _
  | _ => exact hfl

end

theorem step_inv {s t : State} (hI : s.Inv) (h : step s = .next t) : t.Inv := by
  obtain ⟨hmem, hpc, hfl, hcfg⟩ := hI
  rcases step_eq_next_completes h with ⟨k, rfl⟩ | ⟨i, hi, hc⟩
  · exact ⟨hmem, hpc, hfl, hcfg⟩
  · obtain ⟨hfit, _⟩ := fetch_eq_ok hi
    exact ⟨hc.mem_wf hmem, hc.pc_le hfit, hc.fl_exclusive hfl, (step_cfg h).symm ▸ hcfg⟩

/-- Settles O36: part by part, by what a step can do. -/
theorem stepKeepsTheInvariant : Obligations.StepKeepsTheInvariant := fun _ _ => step_inv

theorem Run.inv {s t : State} (hI : s.Inv) (r : Run s t) : t.Inv := by
  induction r with
  | refl => exact hI
  | tail _ h ih => exact step_inv ih h

/-- The created machine meets the invariant by its parameters, and loading the image changes memory alone. -/
theorem boot_inv {p : ResetParams} {s : State} (hp : p.wellFormed = true) (h : boot p = .ok s) : s.Inv := by
  simp only [ResetParams.wellFormed, Bool.and_eq_true, decide_eq_true_eq] at hp
  obtain ⟨⟨⟨⟨hcfg, _⟩, himage⟩, hfl⟩, hpc⟩ := hp
  have hmem : s.mem.wf := wf_loadFrom _ _ _ _ (create_mem_wf p) h
  obtain ⟨m, hboot, _⟩ := boot_of_le p himage
  cases h.symm.trans hboot
  exact ⟨hmem, hpc, hfl, hcfg⟩

/-- Settles O38: the loaded machine meets the invariant, and every step of the run keeps it. -/
theorem bootedRunsKeepTheInvariant : Obligations.BootedRunsKeepTheInvariant :=
  fun _ _ _ hp hboot r => r.inv (boot_inv hp hboot)

/-- Settles O37: the default parameters are within the spec. -/
theorem resetMeetsTheInvariant : Obligations.ResetMeetsTheInvariant :=
  ⟨reset_mem_wf, by decide, by decide, by decide⟩

end Sys2Proof.Machine

/-! PROOFS. The output (10_state.md section 6): what was emitted before a step is no part of what the step does. -/

namespace Sys2Proof.Machine

/-- Bytes emitted earlier, before those of the state. -/
def State.prependOut (o : List Byte) (s : State) : State := s.setOut (o ++ s.out)

theorem unseen_prependOut (o : List Byte) : Unseen (·.prependOut o) where
  regs_eq _ := rfl
  pc_eq _ := rfl
  mem_eq _ := rfl
  setRegs_comm _ _ := rfl
  setPc_comm _ _ := rfl
  setMem_comm _ _ := rfl
  setStatus_comm _ _ := rfl
  emit_comm s v := congrArg s.setOut (List.append_assoc o s.out [v])

theorem fetch_prependOut (o : List Byte) (s : State) : fetch (s.prependOut o) = fetch s := by
  rw [fetch_eq, fetch_eq]
  rfl

theorem step_prependOut {s t : State} (h : step s = .next t) (o : List Byte) :
    step (s.prependOut o) = .next (t.prependOut o) := by
  obtain ⟨hs, ⟨i, hi, he⟩ | ⟨k, hk, rfl⟩⟩ := step_eq_next h
  · rw [step_of_fetch_ok (s := s.prependOut o) hs ((fetch_prependOut o s).trans hi),
      (unseen_prependOut o).exec_comm (fun _ _ _ => rfl), he, mapNext]
  · exact step_of_fetch_error (s := s.prependOut o) hs ((fetch_prependOut o s).trans hk)

/-- A step leaves the output, or it is one of `PRN` and emits a byte. -/
theorem step_out {s t : State} (h : step s = .next t) :
    t.out = s.out ∨ dispatch s.cfg (s.mem.read s.pc) = some .prn ∧ ∃ v, t.out = s.out ++ [v] := by
  rcases step_eq_next_completes h with ⟨k, rfl⟩ | ⟨i, hi, hc⟩
  · exact .inl rfl
  · obtain ⟨_, _, hdisp, _⟩ := fetch_eq_ok hi
    cases hc with
    | prn => exact .inr ⟨hdisp, _, rfl⟩
    | _ => exact .inl rfl

/-- Settles O32: the step is the one from an empty output, with the output put before what that one emits. -/
theorem outputOnlyGrowsAndIsNeverRead : Obligations.OutputOnlyGrowsAndIsNeverRead := by
  intro s t h
  obtain ⟨u, hu⟩ := exists_step_eq_next (s := s.setOut []) (running_of_step_eq_next (s := s) h)
  have hstep (o : List Byte) : step (s.setOut o) = .next (u.prependOut o) := by
    have := step_prependOut hu o
    rwa [State.prependOut, State.setOut_out, List.append_nil] at this
  cases h.symm.trans (hstep s.out)
  refine ⟨u.out, rfl, ?_, fun hne => ?_, hstep⟩
  · rcases step_out hu with he | ⟨_, v, he⟩
    · rw [he]
      exact Nat.zero_le 1
    · rw [he]
      exact le_rfl
  · exact ((step_out hu).resolve_left hne).1

end Sys2Proof.Machine

/-! PROOFS. Sequences of two steps: `PUSH` with `POP`, `CALL` with `RET`, and a push onto the next opcode (43_stack.md
section 3, 44_control.md, 20_memory.md section 3). -/

namespace Sys2Proof.Machine

theorem wellFormed_of_base (c : Config) {i : Instr} (h : i.mnemonic ∈ baseMnemonics) : i.wellFormed c = true := by
  refine wellFormed_iff.2 ?_
  unfold dispatched
  split
  · exact List.mem_append_left _ h
  · exact h

theorem operandsAtPc_of_no_operand (s : State) {i : Instr} (h : i.operands = []) : operandsAtPc s i := by
  intro k hk
  rw [h] at hk
  cases hk

theorem operandsAtPc_pop {s : State} {b : Byte} (h : memRead s (s.pc + 1 : Nat) = .ok b) : operandsAtPc s (.pop b) := by
  intro k hk
  obtain rfl : k = 0 := Nat.lt_one_iff.1 hk
  exact h

/-- With all bytes of a base instruction at the pc, a step executes it. -/
theorem step_eq_exec_of_base {s : State} (i : Instr) (hb : i.mnemonic ∈ baseMnemonics) (hs : s.st = .running)
    (hc : s.cfg.Admissible) (hop : opcodeAtPc s i) (hops : operandsAtPc s i) : step s = exec i s :=
  step_eq_exec hs hc (wellFormed_of_base s.cfg hb) hop hops

/-- The state after a step that pushed `v` and went on at `pc`. -/
def pushed (s : State) (v : Byte) (pc : Nat) : State :=
  { s with
    regs := s.regs.set 7 (BitVec.ofNat 8 (s.regs[7].toNat - 1))
    mem := s.mem.write (s.regs[7].toNat - 1) v
    pc := pc }

section
variable (s : State) (v : Byte) (pc : Nat)

theorem stackPointer_pushed : (stackPointer (pushed s v pc)).toNat = s.regs[7].toNat - 1 := by
  have hsp : stackPointer (pushed s v pc) = BitVec.ofNat 8 (s.regs[7].toNat - 1) := stackPointer_set_self s _
  rw [hsp]
  exact Nat.mod_eq_of_lt (pushCell_lt s)

theorem read_pushed : (pushed s v pc).mem.read (stackPointer (pushed s v pc)).toNat = v := by
  rw [stackPointer_pushed]
  exact Memory.read_write_self _ _ _

variable {s} in
theorem memRead_pushed {x : Int} (hx : x ≠ (s.regs[7].toNat - 1 : Nat)) : memRead (pushed s v pc) x = memRead s x :=
  memRead_of_write (pushCell_lt s) rfl hx

/-- Below a stack pointer that was lowered there is room to raise it. -/
theorem stackPointer_pushed_ne_max : (stackPointer (pushed s v pc)).toNat ≠ 255 := by
  have hle := stackPointer_le s
  rw [stackPointer_pushed]
  simp only [stackPointer] at hle
  omega

variable {s} in
theorem raise_stackPointer_pushed (h0 : s.regs[7].toNat ≠ 0) :
    BitVec.ofNat 8 ((stackPointer (pushed s v pc)).toNat + 1) = s.regs[7] := by
  rw [stackPointer_pushed, Nat.sub_one_add_one h0, BitVec.ofNat_toNat, BitVec.setWidth_eq]

end

section
variable {s : State} {a : Byte} (hs : s.st = .running) (hc : s.cfg.Admissible) (ha : a.toNat < 8) (ha7 : a.toNat ≠ 7)
  (h0 : s.regs[7].toNat ≠ 0)
include hs hc ha ha7 h0

/-- The step of a `PUSH` of a register other than 7. -/
theorem step_push (hop : opcodeAtPc s (.push a)) (hops : operandsAtPc s (.push a)) :
    step s = .next (pushed s s.regs[a.toNat] (s.pc + 2)) := by
  have hb : Mnemonic.push ∈ baseMnemonics := by decide
  have hpush := execPush_of_ne s ha h0
  rw [if_neg ha7] at hpush
  exact (step_eq_exec_of_base (.push a) hb hs hc hop hops).trans hpush

/-- The step of a `CALL` to a register other than 7. -/
theorem step_call (hpc : s.pc ≤ 253) (hop : opcodeAtPc s (.call a)) (hops : operandsAtPc s (.call a)) :
    step s = .next (pushed s (BitVec.ofNat 8 (s.pc + 2)) s.regs[a.toNat].toNat) := by
  have hb : Mnemonic.call ∈ baseMnemonics := by decide
  have hcall := execCall_of_ne s ha hpc h0
  rw [toNat_getElem_pushed s ha, if_neg ha7] at hcall
  exact (step_eq_exec_of_base (.call a) hb hs hc hop hops).trans hcall

end

/-- The step of a `POP` to a register other than 7, from a stack pointer that can be raised. -/
theorem step_pop {s : State} {b : Byte} (hs : s.st = .running) (hc : s.cfg.Admissible) (hop : opcodeAtPc s (.pop b))
    (hops : operandsAtPc s (.pop b)) (hb : b.toNat < 8) (hb7 : b.toNat ≠ 7) (hne : (stackPointer s).toNat ≠ 255) :
    step s = .next { s with
      regs := (s.regs.set b.toNat (s.mem.read (stackPointer s).toNat)).set 7
        (BitVec.ofNat 8 ((stackPointer s).toNat + 1))
      pc := s.pc + 2 } := by
  have hbase : Mnemonic.pop ∈ baseMnemonics := by decide
  have hpop := execPop_of_ne s hb
  rw [if_neg hb7] at hpop
  exact (step_eq_exec_of_base (.pop b) hbase hs hc hop hops).trans (hpop hne)

/-- Settles O39: the `POP` reads the cell the `PUSH` wrote and raises the stack pointer it lowered. -/
theorem pushThenPopMovesTheValue : Obligations.PushThenPopMovesTheValue := by
  intro s a b ha hb ha7 hb7 hs hc _ hop hops hpop hpopb h0 hopcode hoperand
  have hpush := step_push hs hc ha ha7 h0 hop hops
  have hkept {n : Nat} (hn : s.regs[7].toNat - 1 ≠ n) :
      memRead (pushed s s.regs[a.toNat] (s.pc + 2)) n = memRead s n :=
    memRead_pushed _ _ (Int.ofNat_inj.not.2 hn.symm)
  have hpop' := step_pop (s := pushed s s.regs[a.toNat] (s.pc + 2)) hs hc ((hkept hopcode).trans hpop)
    (operandsAtPc_pop ((hkept hoperand).trans hpopb)) hb hb7 (stackPointer_pushed_ne_max _ _ _)
  rw [read_pushed, raise_stackPointer_pushed _ _ h0] at hpop'
  refine ⟨_, _, hpush, hpop', ?_, Vector.getElem_set_self _, rfl, hs⟩
  simp only [Vector.getElem_set_ne _ _ hb7.symm, Vector.getElem_set_self]

/-- Settles O40: the `RET` pops the return address the `CALL` pushed, and stores nothing. -/
theorem callToReturnResumesAfterTheCall : Obligations.CallToReturnResumesAfterTheCall := by
  intro s a ha ha7 hs hc hpc hop hops h0 hret hcell
  have hbase : Mnemonic.ret ∈ baseMnemonics := by decide
  have hcall := step_call hs hc ha ha7 h0 hpc hop hops
  set t := pushed s (BitVec.ofNat 8 (s.pc + 2)) s.regs[a.toNat].toNat
  have hopt : opcodeAtPc t .ret := (memRead_pushed _ _ (Int.ofNat_inj.not.2 hcell.symm)).trans hret
  have hstep : step t = exec .ret t := step_eq_exec_of_base .ret hbase hs hc hopt (operandsAtPc_of_no_operand t rfl)
  have hret' := execRet_of_ne t (stackPointer_pushed_ne_max _ _ _)
  rw [read_pushed, raise_stackPointer_pushed _ _ h0] at hret'
  refine ⟨t, _, hcall, hstep.trans hret', ?_, Vector.getElem_set_self _, hs, ?_, fun x hx => ?_⟩
  · exact Nat.mod_eq_of_lt (by omega)
  · exact (memRead_of_lt t (pushCell_lt s)).trans (congrArg _ (Memory.read_write_self _ _ _))
  · exact (memRead_congr (s := t) rfl x).trans (memRead_pushed _ _ hx)

/-- Settles O41: the byte the `PUSH` wrote is the one the next fetch dispatches. -/
theorem pushedByteIsFetchedNext : Obligations.PushedByteIsFetchedNext := by
  intro s a ha ha7 hs hc hop hops hsp
  have hbase : Mnemonic.hlt ∈ baseMnemonics := by decide
  have hpush := step_push hs hc ha ha7 (by omega) hop hops
  set t := pushed s s.regs[a.toNat] (s.pc + 2)
  have hcell : (stackPointer t).toNat = t.pc := (stackPointer_pushed _ _ _).trans (by rw [hsp]; rfl)
  have hpc : t.pc < memSize := hcell ▸ (stackPointer t).isLt
  have hread : t.mem.read t.pc = s.regs[a.toNat] := hcell ▸ read_pushed _ _ _
  have hfetched : memRead t t.pc = .ok s.regs[a.toNat] := (memRead_of_lt t hpc).trans (congrArg _ hread)
  refine ⟨t, hpush, rfl, hfetched, fun hnone => ?_, fun hhlt => ?_⟩
  · have hd : dispatch t.cfg (t.mem.read t.pc) = none := hread ▸ hnone
    exact step_of_fetch_error (s := t) hs (fetch_of_dispatch_none hpc hd)
  · have hopt : opcodeAtPc t .hlt := hfetched.trans (congrArg _ (dispatch_eq_some hhlt).2.symm)
    exact (step_eq_exec_of_base (s := t) .hlt hbase hs hc hopt (operandsAtPc_of_no_operand t rfl)).trans (exec_hlt t)

end Sys2Proof.Machine

/-! PROOFS. The loader's error, the reset values and the status codes (30_encoding.md section 7, 10_state.md section 7,
60_exceptions.md section 1). -/

namespace Sys2Proof.Machine

/-- Loading past the end of memory is an error, made by the first byte that does not fit. -/
theorem loadFrom_of_gt (bs : List Byte) (a : Nat) (s : State) (ha : a ≤ memSize) (h : memSize < a + bs.length) :
    loadFrom a bs s = .error .outOfBounds := by
  induction bs generalizing a s with
  | nil => exact absurd ha (Nat.not_le.2 h)
  | cons b bs ih =>
    rw [List.length_cons] at h
    by_cases hlt : a < memSize
    · rw [loadFrom, memWrite_of_lt s b hlt, ok_bind]
      exact ih (a + 1) _ hlt (by omega)
    · have hout : ¬(0 ≤ (a : Int) ∧ (a : Int) < memSize) := fun hin => hlt (Int.ofNat_lt.1 hin.2)
      rw [loadFrom, memWrite_of_not b hout, error_bind]

/-- Settles O48: the image is loaded from address 0. -/
theorem oversizeImageIsTheLoadersError : Obligations.OversizeImageIsTheLoadersError := by
  intro p h
  refine loadFrom_of_gt p.image loadOrigin _ (Nat.zero_le _) ?_
  rwa [loadOrigin, Nat.zero_add]

/-- Settles O46: the memory of the reset state lists no cell, so each reads as the default. -/
theorem resetLeavesTheTabledValues : Obligations.ResetLeavesTheTabledValues := by
  refine ⟨by decide, rfl, rfl, by decide, rfl, rfl, fun a ha => ?_⟩
  exact (memRead_of_lt State.reset (Nat.lt_succ_of_le ha)).trans (congrArg Except.ok (Memory.read_nil a))

/-- The four kinds, in the source's order of listing (60_exceptions.md R205). -/
def faultKinds : List FaultKind := [.invalidOpcode, .outOfBounds, .invalidRegister, .unsupportedOperation]

theorem mem_faultKinds (k : FaultKind) : k ∈ faultKinds := by
  cases k <;> decide

/-- Admissible codes are distinct numbers of the kinds, none of them 0. -/
theorem admissible_iff {c : FaultCodes} :
    c.Admissible ↔ 0 ∉ faultKinds.map (faultCode c) ∧ (faultKinds.map (faultCode c)).Nodup :=
  List.nodup_cons

theorem faultCode_ne_zero {c : FaultCodes} (hc : c.Admissible) (k : FaultKind) : faultCode c k ≠ 0 :=
  fun h => (admissible_iff.1 hc).1 (h ▸ List.mem_map_of_mem (mem_faultKinds k))

theorem faultCode_injective {c : FaultCodes} (hc : c.Admissible) {j k : FaultKind} (h : faultCode c j = faultCode c k) :
    j = k :=
  List.inj_on_of_nodup_map (admissible_iff.1 hc).2 (mem_faultKinds j) (mem_faultKinds k) h

theorem statusCode_eq_zero {c : FaultCodes} (hc : c.Admissible) {st : Status} :
    statusCode c st = 0 ↔ st = .running ∨ st = .halted := by
  cases st with
  | running => exact ⟨fun _ => .inl rfl, fun _ => rfl⟩
  | halted => exact ⟨fun _ => .inr rfl, fun _ => rfl⟩
  | faulted k => exact ⟨fun h => absurd h (faultCode_ne_zero hc k), fun h => by rcases h with h | h <;> cases h⟩

/-- Settles O50: the codes number the kinds injectively, from 1 upward by default. -/
theorem statusCodesNumberTheFaults : Obligations.StatusCodesNumberTheFaults := by
  refine ⟨rfl, rfl, rfl, rfl, fun s hc => ⟨statusCode_eq_zero hc, fun k hk => ?_⟩⟩
  have hcode : s.statusCode = faultCode s.cfg.faultCodes k := by rw [State.statusCode, hk, statusCode]
  exact ⟨hcode, fun j hj => faultCode_injective hc (hj.trans hcode)⟩

end Sys2Proof.Machine
